-- ==== Sys2Proof/Word.lean ====
section
/-! DEFINITION. The bit vectors of the core: bytes, 16-bit words and the fields of an instruction word
(00_scope.md R5, 30_encoding.md R71). All values are unsigned. -/

namespace Sys2Proof

/-- `u8`: the contents of a general register, of a memory cell, of a timer (R5). -/
abbrev Byte := BitVec 8

/-- `u16`: the contents of `I`, of `PC`, of a stack slot; an instruction word (R5). -/
abbrev Word := BitVec 16

/-- The field `n`: a sprite height 0..15 (R71). -/
abbrev Nibble := BitVec 4

/-- The fields `x` and `y`: the index of a `V` register, 0..15 (R71). -/
abbrev Reg := BitVec 4

/-- The field `nnn`: a 12-bit address (R71). -/
abbrev Addr12 := BitVec 12

/-- A register index is below 16, the number of general registers (R20). -/
theorem Reg.toNat_lt (x : Reg) : x.toNat < 16 := x.isLt

end Sys2Proof
end

