-- ==== Sys2Proof/Config.lean ====
section
/-! DEFINITION. The parameters of 00_scope.md R4 at the values the spec takes, and the one free value
of the spec, the random byte (R11). The font bytes stand in Machine/Memory.lean and the value of
`UNKNOWN_POLICY` in Machine/Ops.lean. `TICK_HZ` and `INSTR_HZ` are left out: no rule depends on them
(R4, 70_reset_and_hazards.md R206; notes/assumptions/15.md). -/

namespace Sys2Proof.Config

/-- `MEM_SIZE`: valid addresses are 0 to `memSize - 1` (R4, decision D1). -/
abbrev memSize : Nat := 4096

/-- `PROG_BASE`: where the image is loaded and where `PC` starts (R4). -/
abbrev progBase : Nat := 0x200

/-- `FONT_BASE`: address of the first font byte (R4, decision D3). -/
abbrev fontBase : Nat := 0x050

/-- The font has 16 glyphs of 5 bytes (R31). -/
abbrev fontLen : Nat := 80

/-- `STACK_CAP`: the maximum stack depth (R4, 90_conflicts.md C4). -/
abbrev stackCap : Nat := 12

/-- `FB_W`: columns of the framebuffer (R4). -/
abbrev fbWidth : Nat := 64

/-- `FB_H`: rows of the framebuffer (R4). -/
abbrev fbHeight : Nat := 32

/-- `NKEYS`: the number of keys (R4). -/
abbrev nKeys : Nat := 16

/-- The two policies for an Unknown word (60_exceptions.md R174, R193). -/
inductive UnknownPolicy where
  /-- The run ends in `Faulted(UnknownInstruction, word)` (R174). -/
  | halt
  /-- The word acts as a no-operation (R193). -/
  | nop
  deriving DecidableEq, Repr

/-- FREE VALUE (notes/assumptions/2.md). The byte that the `k`-th evaluation of `rnd8()` draws: supplied
from outside the core, under no law (R11). It has no body, so nothing can be proved of its value and a
claim about `RND` holds for every sequence of draws. -/
opaque rnd8 : Nat → Byte

/-- The parameters that 70_reset_and_hazards.md R208 constrains. -/
structure Params where
  memSize : Nat
  progBase : Nat
  fontBase : Nat
  deriving DecidableEq, Repr

/-- The values this hardware takes (R4). -/
def taken : Params := { memSize := memSize, progBase := progBase, fontBase := fontBase }

end Sys2Proof.Config
end

