-- ==== Sys2Proof/Syntax.lean ====
section
/-! DEFINITION. The instructions: one constructor per row of spec/opcode_table.json, in the order of
30_encoding.md R85. The bits that R80 and R81 call ignored are not operands and do not appear. -/

namespace Sys2Proof

/-- The 34 instructions (30_encoding.md R85). `x` and `y` name `V` registers, `nn` is a byte, `nnn` a
12-bit address, `n` a sprite height. -/
inductive Instr where
  /-- `CLS`, 00E0: clear the screen (R140). -/
  | cls
  /-- `RET`, 00EE: return from subroutine (R100). -/
  | ret
  /-- `JP nnn`, 1NNN: jump (R101). -/
  | jp (nnn : Addr12)
  /-- `CALL nnn`, 2NNN: call subroutine (R102). -/
  | call (nnn : Addr12)
  /-- `SE Vx, nn`, 3XNN: skip if equal to the immediate (R103). -/
  | seVxNn (x : Reg) (nn : Byte)
  /-- `SNE Vx, nn`, 4XNN: skip if different from the immediate (R104). -/
  | sneVxNn (x : Reg) (nn : Byte)
  /-- `SE Vx, Vy`, 5XY0: skip if the registers are equal (R105). -/
  | seVxVy (x y : Reg)
  /-- `LD Vx, nn`, 6XNN: load immediate (R110). -/
  | ldVxNn (x : Reg) (nn : Byte)
  /-- `ADD Vx, nn`, 7XNN: add immediate, no flag (R111). -/
  | addVxNn (x : Reg) (nn : Byte)
  /-- `LD Vx, Vy`, 8XY0: copy a register (R112). -/
  | ldVxVy (x y : Reg)
  /-- `OR Vx, Vy`, 8XY1 (R113). -/
  | orVxVy (x y : Reg)
  /-- `AND Vx, Vy`, 8XY2 (R114). -/
  | andVxVy (x y : Reg)
  /-- `XOR Vx, Vy`, 8XY3 (R115). -/
  | xorVxVy (x y : Reg)
  /-- `ADD Vx, Vy`, 8XY4: add with carry out (R116). -/
  | addVxVy (x y : Reg)
  /-- `SUB Vx, Vy`, 8XY5: subtract `Vy` from `Vx` (R117). -/
  | subVxVy (x y : Reg)
  /-- `SHR Vx`, 8XY6 with `y` ignored: shift right by one (R118, R81). -/
  | shrVx (x : Reg)
  /-- `SUBN Vx, Vy`, 8XY7: subtract `Vx` from `Vy` (R119). -/
  | subnVxVy (x y : Reg)
  /-- `SHL Vx`, 8XYE with `y` ignored: shift left by one (R120, R81). -/
  | shlVx (x : Reg)
  /-- `SNE Vx, Vy`, 9XY0: skip if the registers differ (R106). -/
  | sneVxVy (x y : Reg)
  /-- `LD I, nnn`, ANNN: set the index register (R130). -/
  | ldINnn (nnn : Addr12)
  /-- `JP V0, nnn`, BNNN: jump with offset (R107). -/
  | jpV0Nnn (nnn : Addr12)
  /-- `RND Vx, nn`, CXNN: masked random byte (R121). -/
  | rndVxNn (x : Reg) (nn : Byte)
  /-- `DRW Vx, Vy, n`, DXYN: draw a sprite (R141). -/
  | drwVxVyN (x y : Reg) (n : Nibble)
  /-- `SKP Vx`, EX9E: skip if the key is pressed (R150). -/
  | skpVx (x : Reg)
  /-- `SKNP Vx`, EXA1: skip if the key is not pressed (R151). -/
  | sknpVx (x : Reg)
  /-- `LD Vx, DT`, FX07: read the delay timer (R152). -/
  | ldVxDt (x : Reg)
  /-- `LD Vx, K`, FX0A: wait for a key press (R153). -/
  | ldVxK (x : Reg)
  /-- `LD DT, Vx`, FX15: set the delay timer (R154). -/
  | ldDtVx (x : Reg)
  /-- `LD ST, Vx`, FX18: set the sound timer (R155). -/
  | ldStVx (x : Reg)
  /-- `ADD I, Vx`, FX1E: add a register to the index (R131). -/
  | addIVx (x : Reg)
  /-- `LD F, Vx`, FX29: address of a font glyph (R132). -/
  | ldFVx (x : Reg)
  /-- `LD B, Vx`, FX33: store binary-coded decimal (R133). -/
  | ldBVx (x : Reg)
  /-- `LD [I], Vx`, FX55: store `V0` to `Vx` (R134). -/
  | ldMemVx (x : Reg)
  /-- `LD Vx, [I]`, FX65: load `V0` to `Vx` (R135). -/
  | ldVxMem (x : Reg)
  deriving DecidableEq, Repr

end Sys2Proof
end

