-- ==== Sys2Proof/WellFormed.lean ====
section
/-! DEFINITION. What is well formed: an instruction word (against spec/opcode_table.json's rows, 30_encoding.md
R87), the parameters (70_reset_and_hazards.md R208), a program image (R202). -/

namespace Sys2Proof

/-- A row of spec/opcode_table.json: a word belongs to it when `w &&& mask = value` (R87). -/
structure Row where
  mnemonic : String
  value : Word
  mask : Word
  deriving DecidableEq, Repr

/-- `(w & mask) = match` (R87). -/
def Row.covers (r : Row) (w : Word) : Bool := w &&& r.mask == r.value

/-- The row of each instruction, with the table's own mnemonic, match and mask. -/
def Instr.row : Instr → Row
  | .cls => ⟨"CLS", 0x00E0, 0xFFFF⟩
  | .ret => ⟨"RET", 0x00EE, 0xFFFF⟩
  | .jp _ => ⟨"JP_nnn", 0x1000, 0xF000⟩
  | .call _ => ⟨"CALL_nnn", 0x2000, 0xF000⟩
  | .seVxNn _ _ => ⟨"SE_Vx__nn", 0x3000, 0xF000⟩
  | .sneVxNn _ _ => ⟨"SNE_Vx__nn", 0x4000, 0xF000⟩
  | .seVxVy _ _ => ⟨"SE_Vx__Vy", 0x5000, 0xF000⟩
  | .ldVxNn _ _ => ⟨"LD_Vx__nn", 0x6000, 0xF000⟩
  | .addVxNn _ _ => ⟨"ADD_Vx__nn", 0x7000, 0xF000⟩
  | .ldVxVy _ _ => ⟨"LD_Vx__Vy", 0x8000, 0xF00F⟩
  | .orVxVy _ _ => ⟨"OR_Vx__Vy", 0x8001, 0xF00F⟩
  | .andVxVy _ _ => ⟨"AND_Vx__Vy", 0x8002, 0xF00F⟩
  | .xorVxVy _ _ => ⟨"XOR_Vx__Vy", 0x8003, 0xF00F⟩
  | .addVxVy _ _ => ⟨"ADD_Vx__Vy", 0x8004, 0xF00F⟩
  | .subVxVy _ _ => ⟨"SUB_Vx__Vy", 0x8005, 0xF00F⟩
  | .shrVx _ => ⟨"SHR_Vx", 0x8006, 0xF00F⟩
  | .subnVxVy _ _ => ⟨"SUBN_Vx__Vy", 0x8007, 0xF00F⟩
  | .shlVx _ => ⟨"SHL_Vx", 0x800E, 0xF00F⟩
  | .sneVxVy _ _ => ⟨"SNE_Vx__Vy", 0x9000, 0xF000⟩
  | .ldINnn _ => ⟨"LD_I__nnn", 0xA000, 0xF000⟩
  | .jpV0Nnn _ => ⟨"JP_V0__nnn", 0xB000, 0xF000⟩
  | .rndVxNn _ _ => ⟨"RND_Vx__nn", 0xC000, 0xF000⟩
  | .drwVxVyN _ _ _ => ⟨"DRW_Vx__Vy__n", 0xD000, 0xF000⟩
  | .skpVx _ => ⟨"SKP_Vx", 0xE09E, 0xF0FF⟩
  | .sknpVx _ => ⟨"SKNP_Vx", 0xE0A1, 0xF0FF⟩
  | .ldVxDt _ => ⟨"LD_Vx__DT", 0xF007, 0xF0FF⟩
  | .ldVxK _ => ⟨"LD_Vx__K", 0xF00A, 0xF0FF⟩
  | .ldDtVx _ => ⟨"LD_DT__Vx", 0xF015, 0xF0FF⟩
  | .ldStVx _ => ⟨"LD_ST__Vx", 0xF018, 0xF0FF⟩
  | .addIVx _ => ⟨"ADD_I__Vx", 0xF01E, 0xF0FF⟩
  | .ldFVx _ => ⟨"LD_F__Vx", 0xF029, 0xF0FF⟩
  | .ldBVx _ => ⟨"LD_B__Vx", 0xF033, 0xF0FF⟩
  | .ldMemVx _ => ⟨"LD__I___Vx", 0xF055, 0xF0FF⟩
  | .ldVxMem _ => ⟨"LD_Vx___I", 0xF065, 0xF0FF⟩

/-- The opcode table: the 34 rows in the order of R85. -/
def opcodeTable : List Row :=
  ([Instr.cls, .ret, .jp 0, .call 0, .seVxNn 0 0, .sneVxNn 0 0, .seVxVy 0 0, .ldVxNn 0 0, .addVxNn 0 0] ++
   [Instr.ldVxVy 0 0, .orVxVy 0 0, .andVxVy 0 0, .xorVxVy 0 0, .addVxVy 0 0, .subVxVy 0 0, .shrVx 0, .subnVxVy 0 0, .shlVx 0] ++
   [Instr.sneVxVy 0 0, .ldINnn 0, .jpV0Nnn 0, .rndVxNn 0 0, .drwVxVyN 0 0 0, .skpVx 0, .sknpVx 0, .ldVxDt 0, .ldVxK 0] ++
   [Instr.ldDtVx 0, .ldStVx 0, .addIVx 0, .ldFVx 0, .ldBVx 0, .ldMemVx 0, .ldVxMem 0]).map Instr.row

/-- A word is an instruction word when a row of the table covers it; every other word is Unknown
(R82, R87). -/
def isInstructionWord (w : Word) : Bool := opcodeTable.any (fun r => r.covers w)

/-- Every operand value of every instruction is legal (30_encoding.md R73, 60_exceptions.md R170: no
illegal operand); the operand types carry the ranges of R71, so no instruction is ill formed. -/
def Instr.wellFormed (_ : Instr) : Bool := true

/-- `FONT_BASE + 80 <= PROG_BASE <= MEM_SIZE <= 65536`; parameters that break it are a configuration
error (R208). -/
def Config.Params.wellFormed (p : Config.Params) : Bool :=
  decide (p.fontBase + Config.fontLen ≤ p.progBase) && decide (p.progBase ≤ p.memSize) &&
    decide (p.memSize ≤ 65536)

/-- An image fits when `0x200 + len <= MEM_SIZE`; `load_program` rejects every other image with
`ProgramTooLarge` (R202, R175). The empty image and odd lengths are accepted. -/
def imageFits (image : List Byte) : Bool := decide (Config.progBase + image.length ≤ Config.memSize)

end Sys2Proof
end

