-- ==== Sys2Proof/Decode.lean ====
section
/-! DEFINITION. The decoder of 30_encoding.md (fields R71, dispatch R75 to R79, ignored bits R80, R81), a pure
function of the word alone (R70), and the encoder written from the same patterns. The numeric patterns,
but for ANNN and DXYN, are the spec's general knowledge (92_eei_decisions.md D21; notes/assumptions/12.md). -/

namespace Sys2Proof

/-! ## Fields (R71) -/

/-- `op = w[15:12]`. -/
def fieldOp (w : Word) : Nibble := w.extractLsb' 12 4

/-- `x = w[11:8]`. -/
def fieldX (w : Word) : Reg := w.extractLsb' 8 4

/-- `y = w[7:4]`. -/
def fieldY (w : Word) : Reg := w.extractLsb' 4 4

/-- `n = w[3:0]`. -/
def fieldN (w : Word) : Nibble := w.extractLsb' 0 4

/-- `nn = w[7:0]`. -/
def fieldNn (w : Word) : Byte := w.extractLsb' 0 8

/-- `nnn = w[11:0]`. -/
def fieldNnn (w : Word) : Addr12 := w.extractLsb' 0 12

/-! ## The decoder -/

/-- Family 0x0, matched on the whole word; every other word is Unknown (R76). -/
def decodeFamily0 (w : Word) : Option Instr :=
  if w = 0x00E0 then some .cls
  else if w = 0x00EE then some .ret
  else none

/-- Family 0x8, selected by `n` (R77); `y` is ignored in the two shifts (R81). -/
def decodeFamily8 (w : Word) : Option Instr :=
  match fieldN w with
  | 0x0#4 => some (.ldVxVy (fieldX w) (fieldY w))
  | 0x1#4 => some (.orVxVy (fieldX w) (fieldY w))
  | 0x2#4 => some (.andVxVy (fieldX w) (fieldY w))
  | 0x3#4 => some (.xorVxVy (fieldX w) (fieldY w))
  | 0x4#4 => some (.addVxVy (fieldX w) (fieldY w))
  | 0x5#4 => some (.subVxVy (fieldX w) (fieldY w))
  | 0x6#4 => some (.shrVx (fieldX w))
  | 0x7#4 => some (.subnVxVy (fieldX w) (fieldY w))
  | 0xE#4 => some (.shlVx (fieldX w))
  | _ => none

/-- Family 0xE, selected by `nn` (R78). -/
def decodeFamilyE (w : Word) : Option Instr :=
  match fieldNn w with
  | 0x9E#8 => some (.skpVx (fieldX w))
  | 0xA1#8 => some (.sknpVx (fieldX w))
  | _ => none

/-- Family 0xF, selected by `nn` (R79). -/
def decodeFamilyF (w : Word) : Option Instr :=
  match fieldNn w with
  | 0x07#8 => some (.ldVxDt (fieldX w))
  | 0x0A#8 => some (.ldVxK (fieldX w))
  | 0x15#8 => some (.ldDtVx (fieldX w))
  | 0x18#8 => some (.ldStVx (fieldX w))
  | 0x1E#8 => some (.addIVx (fieldX w))
  | 0x29#8 => some (.ldFVx (fieldX w))
  | 0x33#8 => some (.ldBVx (fieldX w))
  | 0x55#8 => some (.ldMemVx (fieldX w))
  | 0x65#8 => some (.ldVxMem (fieldX w))
  | _ => none

/-- Dispatch on the top nibble (R75); `none` is the decoder's Unknown. The low nibble is ignored under
0x5 and 0x9 (R80). -/
def decodeWord (w : Word) : Option Instr :=
  match fieldOp w with
  | 0x0#4 => decodeFamily0 w
  | 0x1#4 => some (.jp (fieldNnn w))
  | 0x2#4 => some (.call (fieldNnn w))
  | 0x3#4 => some (.seVxNn (fieldX w) (fieldNn w))
  | 0x4#4 => some (.sneVxNn (fieldX w) (fieldNn w))
  | 0x5#4 => some (.seVxVy (fieldX w) (fieldY w))
  | 0x6#4 => some (.ldVxNn (fieldX w) (fieldNn w))
  | 0x7#4 => some (.addVxNn (fieldX w) (fieldNn w))
  | 0x8#4 => decodeFamily8 w
  | 0x9#4 => some (.sneVxVy (fieldX w) (fieldY w))
  | 0xA#4 => some (.ldINnn (fieldNnn w))
  | 0xB#4 => some (.jpV0Nnn (fieldNnn w))
  | 0xC#4 => some (.rndVxNn (fieldX w) (fieldNn w))
  | 0xD#4 => some (.drwVxVyN (fieldX w) (fieldY w) (fieldN w))
  | 0xE#4 => decodeFamilyE w
  | _ => decodeFamilyF w

/-! ## Bytes: a word is stored high byte first (20_memory.md R52) -/

/-- The word whose high byte is `hi` and whose low byte is `lo`. -/
def wordOfBytes (hi lo : Byte) : Word := hi ++ lo

/-- The two bytes of a word, in the order of their addresses. -/
def bytesOfWord (w : Word) : List Byte := [w.extractLsb' 8 8, w.extractLsb' 0 8]

/-- What the decoder makes of a list of bytes. -/
inductive Decoded where
  /-- An instruction, and the bytes after its word. -/
  | instr (i : Instr) (rest : List Byte)
  /-- A word of the Unknown space, by name (R82): executing it raises `UnknownInstruction(word)`. -/
  | unknownInstruction (word : Word)
  /-- Fewer than the two bytes of a word. -/
  | tooShort
  deriving DecidableEq, Repr

/-- Decode the first word of a list of bytes; total (R70). -/
def decodeBytes : List Byte → Decoded
  | hi :: lo :: rest =>
    match decodeWord (wordOfBytes hi lo) with
    | some i => .instr i rest
    | none => .unknownInstruction (wordOfBytes hi lo)
  | _ => .tooShort

/-- The decoder's answer on a word given as the opcode table numbers its bits: bit 0 is the least
significant bit of the word, which is the only word (R70). The word is laid out high byte first (R52). -/
def decodeTableWord (nbits w : Nat) : Option Instr :=
  match decodeBytes (bytesOfWord (BitVec.ofNat 16 (w % 2 ^ nbits))) with
  | .instr i _ => some i
  | _ => none

/-! ## The encoder (R72, R75 to R79), with the ignored bits 0 as an assembler emits them (R80, R81) -/

/-- Format `NNN`. -/
def formNnn (op : Nibble) (nnn : Addr12) : Word := op ++ nnn

/-- Formats `XNN` and `XSS`. -/
def formXnn (op : Nibble) (x : Reg) (nn : Byte) : Word := op ++ x ++ nn

/-- Formats `XYS` and `XYN`. -/
def formXyn (op : Nibble) (x y : Reg) (n : Nibble) : Word := op ++ x ++ y ++ n

/-- The word of an instruction. -/
def encode : Instr → Word
  | .cls => 0x00E0
  | .ret => 0x00EE
  | .jp nnn => formNnn 0x1 nnn
  | .call nnn => formNnn 0x2 nnn
  | .seVxNn x nn => formXnn 0x3 x nn
  | .sneVxNn x nn => formXnn 0x4 x nn
  | .seVxVy x y => formXyn 0x5 x y 0x0
  | .ldVxNn x nn => formXnn 0x6 x nn
  | .addVxNn x nn => formXnn 0x7 x nn
  | .ldVxVy x y => formXyn 0x8 x y 0x0
  | .orVxVy x y => formXyn 0x8 x y 0x1
  | .andVxVy x y => formXyn 0x8 x y 0x2
  | .xorVxVy x y => formXyn 0x8 x y 0x3
  | .addVxVy x y => formXyn 0x8 x y 0x4
  | .subVxVy x y => formXyn 0x8 x y 0x5
  | .shrVx x => formXyn 0x8 x 0x0 0x6
  | .subnVxVy x y => formXyn 0x8 x y 0x7
  | .shlVx x => formXyn 0x8 x 0x0 0xE
  | .sneVxVy x y => formXyn 0x9 x y 0x0
  | .ldINnn nnn => formNnn 0xA nnn
  | .jpV0Nnn nnn => formNnn 0xB nnn
  | .rndVxNn x nn => formXnn 0xC x nn
  | .drwVxVyN x y n => formXyn 0xD x y n
  | .skpVx x => formXnn 0xE x 0x9E
  | .sknpVx x => formXnn 0xE x 0xA1
  | .ldVxDt x => formXnn 0xF x 0x07
  | .ldVxK x => formXnn 0xF x 0x0A
  | .ldDtVx x => formXnn 0xF x 0x15
  | .ldStVx x => formXnn 0xF x 0x18
  | .addIVx x => formXnn 0xF x 0x1E
  | .ldFVx x => formXnn 0xF x 0x29
  | .ldBVx x => formXnn 0xF x 0x33
  | .ldMemVx x => formXnn 0xF x 0x55
  | .ldVxMem x => formXnn 0xF x 0x65

/-- A word with the bits that R80 and R81 call ignored set to 0: the low nibble under 0x5 and 0x9, the `y`
field of the two shifts. -/
def canonicalWord (w : Word) : Word :=
  if fieldOp w = 0x5 ∨ fieldOp w = 0x9 then w &&& 0xFFF0
  else if fieldOp w = 0x8 ∧ (fieldN w = 0x6 ∨ fieldN w = 0xE) then w &&& 0xFF0F
  else w

end Sys2Proof
end

