-- ==== Sys2Proof/Machine/State.lean ====
section
/-! DEFINITION. The state of the core (10_state.md), the reasons a step can stop, and the state after reset
(R33). The last four fields of `State` are the model's own and no part of the core. -/

namespace Sys2Proof.Machine

/-- The kind and info of a fault an instruction step raises (R30, 60_exceptions.md R170). The fifth kind,
`ProgramTooLarge`, is raised by `load_program` only and is a `LoadReport`. -/
inductive FaultKind where
  /-- An address `>= MEM_SIZE` (R171). -/
  | outOfBounds
  /-- `CALL` with 12 entries on the stack (R172). -/
  | stackOverflow
  /-- `RET` with an empty stack (R173). -/
  | stackUnderflow
  /-- The fetched word is in the Unknown space; the record holds it (R174). -/
  | unknownInstruction (word : Word)
  deriving DecidableEq, Repr

/-- `RUN`, the Executor's state (R29). -/
inductive RunState where
  /-- An instruction step is enabled. -/
  | ready
  /-- Waiting for a key-press edge, whose code goes to `V[x]`. -/
  | awaitKey (x : Reg)
  /-- An instruction raised an error; only `reset` leaves this state. -/
  | faulted (kind : FaultKind)
  /-- The host ended the run; only `reset` leaves this state. -/
  | cancelled
  deriving DecidableEq, Repr

/-- What `load_program` gives back to the host (R194, R202). -/
inductive LoadReport where
  /-- The image was loaded. -/
  | ok
  /-- The image does not fit; nothing was written (R175). -/
  | programTooLarge
  deriving DecidableEq, Repr

/-- The events by which the outside acts on the core (60_exceptions.md R179, R194). A random byte is not an
event: it is drawn inside `RND`. -/
inductive HostEvent where
  /-- The 60 Hz tick (R180). -/
  | tick
  /-- `set_key(code, pressed)` (R181); a code above 15 names no key. -/
  | setKey (code : Nat) (pressed : Bool)
  /-- Cancellation of the run (R183). -/
  | cancel
  /-- Reset, with the font load (R200, R201). -/
  | reset
  /-- `load_program(bytes)` (R202). -/
  | loadProgram (image : List Byte)
  deriving DecidableEq, Repr

/-- Whose move a step is (00_scope.md R12). -/
inductive Turn where
  /-- The Executor's. -/
  | executor
  /-- An event from outside. -/
  | host (e : HostEvent)
  deriving DecidableEq, Repr

/-- `FB`: 32 rows of 64 one-bit pixels, row 0 at the top, column 0 at the left (R26). -/
abbrev Framebuffer := Vector (Vector Bool 64) 32

/-- `MEM` as the cells that differ from the reset contents, in one canonical form (`Memory.wf` in
Machine/Memory.lean). -/
abbrev Memory := List Host.Cell

/-- Everything the spec gives the machine (10_state.md R20 to R30), and the model's own four fields. -/
structure State where
  /-- `V[0..15]` (R20); `V[15]` is `VF` (R21). -/
  v : Vector Byte 16
  /-- `I`, never masked (R22). -/
  i : Word
  /-- `PC`, never masked (R23). -/
  pc : Word
  /-- `S[0..11]`; the slots below `sp` are occupied (R24). -/
  stack : Vector Word 12
  /-- `SP`, the stack depth 0..12 (R24). -/
  sp : Fin 13
  /-- `DT`, the delay timer (R25). -/
  dt : Byte
  /-- `ST`, the sound timer (R25). -/
  st : Byte
  /-- `FB[y][x]` (R26). -/
  fb : Framebuffer
  /-- `K[0..15]` (R27). -/
  k : Vector Bool 16
  /-- `MEM` (R28). -/
  mem : Memory
  /-- `RUN` with its fault record (R29, R30). -/
  run : RunState
  /-- MODEL'S OWN: how many random bytes have been drawn (R11; notes/assumptions/3.md). -/
  draws : Nat
  /-- MODEL'S OWN: an instruction step has been taken since reset (R202; notes/assumptions/9.md). -/
  launched : Bool
  /-- MODEL'S OWN: what the latest `load_program` since reset gave back (R194; notes/assumptions/9.md). -/
  loadReport : Option LoadReport
  /-- MODEL'S OWN: the moves to come, the next one first; when it is empty the next move is the
  Executor's (R12, R192; notes/assumptions/1.md). -/
  schedule : List Turn
  deriving DecidableEq, Repr

/-- Why the model stops. Both are raised by a step whose turn is the Executor's while no instruction step is
enabled; both are SAFE, since the core stands still there (R184, R207; notes/assumptions/8.md). -/
inductive Fault where
  /-- Raised by `executorTurn` when `RUN = Faulted(kind)`: the error the Executor surfaces (R176). Safe. -/
  | runFaulted (kind : FaultKind)
  /-- Raised by `executorTurn` when `RUN = Cancelled` (R183). Safe. -/
  | runCancelled
  deriving DecidableEq, Repr

/-- What the model refuses. -/
inductive Refusal where
  /-- Raised by `exec` for an instruction without a meaning. No arm does: every instruction has one. Safe. -/
  | notModelled (mnemonic : String)
  /-- Raised by the host event `load_program` after the first instruction step since reset: the spec allows
  no loading during a run and gives it no effect (R202; notes/assumptions/9.md). Safe. -/
  | loadDuringRun
  deriving DecidableEq, Repr

/-- An outcome of this machine. -/
abbrev Outcome := Host.Outcome State Fault Refusal

/-- The framebuffer with every pixel unset. -/
def Framebuffer.clear : Framebuffer := Vector.replicate 32 (Vector.replicate 64 false)

/-- The state after `reset` (R33, R200). No cell is listed, so `MEM` holds its reset contents: the font copy
and zeros. The stack slots and the model's own fields are not given by the spec
(notes/assumptions/1.md, 3.md, 5.md, 9.md). -/
def State.reset : State :=
  { v := Vector.replicate 16 0
    i := 0x0000
    pc := BitVec.ofNat 16 Config.progBase
    stack := Vector.replicate 12 0
    sp := 0
    dt := 0
    st := 0
    fb := Framebuffer.clear
    k := Vector.replicate 16 false
    mem := []
    run := .ready
    draws := 0
    launched := false
    loadReport := none
    schedule := [] }

end Sys2Proof.Machine
end

