-- ==== Sys2Proof/Machine/Memory.lean ====
section
/-! DEFINITION. `MEM` (20_memory.md): its reset contents, reading and writing one byte, the canonical form, and
blocks of consecutive bytes. Addresses are natural numbers and are never reduced (R65). The bounds check
stands in Machine/Ops.lean, before every use. -/

namespace Sys2Proof.Machine

/-- `FONT_TABLE`, 16 glyphs of 5 bytes, top row first (10_state.md R31; the values are the spec's general
knowledge, decision D4, notes/assumptions/6.md). -/
def fontTable : List Byte :=
  [0xF0, 0x90, 0x90, 0x90, 0xF0] ++ [0x20, 0x60, 0x20, 0x20, 0x70] ++   -- 0, 1
  [0xF0, 0x10, 0xF0, 0x80, 0xF0] ++ [0xF0, 0x10, 0xF0, 0x10, 0xF0] ++   -- 2, 3
  [0x90, 0x90, 0xF0, 0x10, 0x10] ++ [0xF0, 0x80, 0xF0, 0x10, 0xF0] ++   -- 4, 5
  [0xF0, 0x80, 0xF0, 0x90, 0xF0] ++ [0xF0, 0x10, 0x20, 0x40, 0x40] ++   -- 6, 7
  [0xF0, 0x90, 0xF0, 0x90, 0xF0] ++ [0xF0, 0x90, 0xF0, 0x10, 0xF0] ++   -- 8, 9
  [0xF0, 0x90, 0xF0, 0x90, 0x90] ++ [0xE0, 0x90, 0xE0, 0x90, 0xE0] ++   -- A, B
  [0xF0, 0x80, 0x80, 0x80, 0xF0] ++ [0xE0, 0x90, 0x90, 0x90, 0xE0] ++   -- C, D
  [0xF0, 0x80, 0xF0, 0x80, 0xF0] ++ [0xF0, 0x80, 0xF0, 0x80, 0x80]      -- E, F

/-- What an address that no cell lists reads as: the reset contents, the font copy at `FONT_BASE` and 0x00
elsewhere (R33, R201, 20_memory.md R51). -/
def Memory.background (a : Nat) : Byte :=
  if Config.fontBase ≤ a ∧ a < Config.fontBase + Config.fontLen then
    fontTable.getD (a - Config.fontBase) 0
  else 0

/-- The byte at an address: the byte last written there, or the reset value (R56). -/
def Memory.read : Memory → Nat → Byte
  | [], a => Memory.background a
  | (b, u) :: m, a => if a = b then u else Memory.read m a

/-- Put a byte at an address, keeping the cells sorted and listing none that equals the reset contents. -/
def Memory.write : Memory → Nat → Byte → Memory
  | [], a, w => if w = Memory.background a then [] else [(a, w)]
  | (b, u) :: m, a, w =>
    if a < b then (if w = Memory.background a then (b, u) :: m else (a, w) :: (b, u) :: m)
    else if a = b then (if w = Memory.background a then m else (a, w) :: m)
    else (b, u) :: Memory.write m a w

/-- The cells are strictly rising from `lo`, exist, and differ from the reset contents. -/
def Memory.wfFrom : Nat → Memory → Bool
  | _, [] => true
  | lo, (a, u) :: m =>
    decide (lo ≤ a) && decide (a < Config.memSize) && (u != Memory.background a) &&
      Memory.wfFrom (a + 1) m

/-- The canonical form of `MEM`: equal memories are equal lists. -/
def Memory.wf (m : Memory) : Bool := Memory.wfFrom 0 m

/-- Write bytes at consecutive ascending addresses from `base` (R54). -/
def Memory.writeBlock : Memory → Nat → List Byte → Memory
  | m, _, [] => m
  | m, base, b :: bs => Memory.writeBlock (m.write base b) (base + 1) bs

end Sys2Proof.Machine
end

