-- ==== Sys2Proof/Machine/Ops.lean ====
section
/-! DEFINITION. The named operations over registers, memory, stack, framebuffer and keys, and the taking of a
fault (00_scope.md R6 to R10, 60_exceptions.md R176). -/

namespace Sys2Proof.Machine

/-! ## General registers (10_state.md R20, R21) -/

/-- `V[x]`. -/
def State.readV (s : State) (x : Reg) : Byte := s.v[x.toNat]'(Reg.toNat_lt x)

/-- `V[x] <- b`. No register is hardwired (R20). -/
def State.writeV (s : State) (x : Reg) (b : Byte) : State :=
  { s with v := s.v.set x.toNat b (Reg.toNat_lt x) }

/-- `VF`, which doubles as the flag (R21). -/
abbrev vf : Reg := 15

/-- Write bytes to consecutive registers from `V[k]` upward (42_index_memory.md R135). -/
def State.writeRegs (s : State) (k : Nat) : List Byte → State
  | [] => s
  | b :: bs => (s.writeV (BitVec.ofNat 4 k) b).writeRegs (k + 1) bs

/-- The contents of `V[0] .. V[x]`, in order (R134). -/
def State.regBlock (s : State) (x : Reg) : List Byte := s.v.toList.take (x.toNat + 1)

/-! ## Program counter (10_state.md R23) -/

/-- `PC <- (PC + 2) mod 2^16`: the advance of the instruction step, and of a skip that skips. -/
def State.advance (s : State) : State := { s with pc := s.pc + 2 }

/-- A skip "advance[s] `PC` by an extra 2" when its condition holds (40_control_flow.md R108). -/
def State.skipIf (s : State) (c : Bool) : State := if c then s.advance else s

/-! ## Memory with its bounds check (00_scope.md R7, R8, 20_memory.md R55) -/

/-- `MemRead(a, 1)`; `none` is `raise OutOfBounds` (R7). -/
def State.memRead1 (s : State) (a : Nat) : Option Byte :=
  if a ≥ Config.memSize then none else some (s.mem.read a)

/-- `MemRead(a, 2)`, big-endian, used by instruction fetch only; `none` is `raise OutOfBounds` (R7, R52). -/
def State.memRead2 (s : State) (a : Nat) : Option Word :=
  if a + 1 ≥ Config.memSize then none else some (wordOfBytes (s.mem.read a) (s.mem.read (a + 1)))

/-- `MemWrite(a, 1, b)`; `none` is `raise OutOfBounds` (R8). -/
def State.memWrite (s : State) (a : Nat) (b : Byte) : Option State :=
  if a ≥ Config.memSize then none else some { s with mem := s.mem.write a b }

/-- `MemRead(base + k, 1)` for `k = 0 .. n-1`, ascending; `none` when any of them raises (42_index_memory.md
R136). The address sum is not reduced (20_memory.md R65). -/
def State.loadBytes (s : State) (base : Nat) : Nat → Option (List Byte)
  | 0 => some []
  | n + 1 =>
    match s.memRead1 base, s.loadBytes (base + 1) n with
    | some b, some bs => some (b :: bs)
    | _, _ => none

/-- `MemWrite(base + k, 1, b_k)` for the bytes in order, ascending; `none` when any of them raises, and then the
state before is kept by the caller: all-or-nothing (42_index_memory.md R136). -/
def State.storeBytes (s : State) (base : Nat) : List Byte → Option State
  | [] => some s
  | b :: bs =>
    match s.memWrite base b with
    | some s' => s'.storeBytes (base + 1) bs
    | none => none

/-- The host's store of bytes whose range it has checked (70_reset_and_hazards.md R202). -/
def State.storeBlock (s : State) (base : Nat) (bs : List Byte) : State :=
  { s with mem := s.mem.writeBlock base bs }

/-! ## Stack (00_scope.md R10, 10_state.md R24) -/

/-- `Push(a)`; `none` is `raise StackOverflow`. -/
def State.push (s : State) (a : Word) : Option State :=
  if h : s.sp.val < 12 then
    some { s with stack := s.stack.set s.sp.val a h, sp := ⟨s.sp.val + 1, Nat.succ_lt_succ h⟩ }
  else none

/-- `Pop()`: the value popped and the state after; `none` is `raise StackUnderflow`. -/
def State.pop (s : State) : Option (Word × State) :=
  match s.sp with
  | ⟨0, _⟩ => none
  | ⟨n + 1, h⟩ =>
    some (s.stack[n]'(Nat.lt_of_succ_lt_succ h), { s with sp := ⟨n, Nat.lt_of_succ_lt h⟩ })

/-! ## Framebuffer (10_state.md R26) -/

/-- `FB[y][x]`; a coordinate outside the grid reads as unset. -/
def Framebuffer.pixel (fb : Framebuffer) (x y : Nat) : Bool :=
  if h : y < 32 ∧ x < 64 then (fb[y]'h.1)[x]'h.2 else false

/-- `FB[y][x] <- FB[y][x] ^ 1`. -/
def Framebuffer.toggle (fb : Framebuffer) (x y : Nat) : Framebuffer :=
  if h : y < 32 ∧ x < 64 then
    fb.set y ((fb[y]'h.1).set x (!(fb[y]'h.1)[x]'h.2) h.2) h.1
  else fb

/-! ## Keys (10_state.md R27) -/

/-- `K[code]`, false for a code that names no key (44_timers_keys.md R156). -/
def State.key (s : State) (code : Nat) : Bool :=
  if h : code < 16 then s.k[code]'h else false

/-- `K[code] <- b`; no effect for a code that names no key (60_exceptions.md R181). -/
def State.setKeyBit (s : State) (code : Nat) (b : Bool) : State :=
  if h : code < 16 then { s with k := s.k.set code b h } else s

/-! ## Faults -/

/-- FAULT ENTRY (60_exceptions.md R176, 00_scope.md R9): `RUN <- Faulted(kind)`. Nothing else is written: `PC`
keeps the value it had when the error was detected, there is no handler address and no saved register. The
run is left only by `reset` (R184): there is no return from a fault. -/
def takeFault (kind : FaultKind) (s : State) : State := { s with run := .faulted kind }

/-- `UNKNOWN_POLICY`, the value the spec takes (R174, decision D9; notes/assumptions/11.md). -/
def unknownPolicy : Config.UnknownPolicy := .halt

/-- Executing an Unknown word, `PC` already advanced: a fault under `halt` (R174), a no-operation under `nop`
(R193). -/
def takeUnknown (p : Config.UnknownPolicy) (w : Word) (s : State) : State :=
  match p with
  | .halt => takeFault (.unknownInstruction w) s
  | .nop => s

/-! ## Outputs (10_state.md R35): reading them changes nothing -/

/-- The framebuffer snapshot. -/
def State.snapshot (s : State) : Framebuffer := s.fb

/-- The sound timer's current value. -/
def State.soundTimer (s : State) : Byte := s.st

/-- The run state with its fault record. -/
def State.runState (s : State) : RunState := s.run

end Sys2Proof.Machine
end

