-- ==== Sys2Proof/Machine/Operands.lean ====
section
/-! DEFINITION. The operand forms: zero-extended immediates (30_encoding.md R73), register-indirect addresses
through `I` (42_index_memory.md R136), key codes (44_timers_keys.md R156), glyph addresses (R132), decimal
digits (R133), sprite positions and rows (43_display.md R141, R142). -/

namespace Sys2Proof.Machine

/-- `zext_16(nnn)` (R73). -/
def zext12 (nnn : Addr12) : Word := nnn.setWidth 16

/-- `zext_16(b)` of a byte (R107, R131). -/
def zext8 (b : Byte) : Word := b.setWidth 16

/-- The effective address `I + k`, formed without reduction (42_index_memory.md R136, 20_memory.md R65). -/
def State.indexAddr (s : State) (k : Nat) : Nat := s.i.toNat + k

/-- `pressed(v) = (v <= 15) and (K[v] = 1)` (44_timers_keys.md R156). -/
def State.pressed (s : State) (v : Byte) : Bool := s.key v.toNat

/-- `FONT_BASE + 5 * zext_16(v)` (R132); at most 0x054B, so the sum does not wrap. -/
def glyphAddr (v : Byte) : Word := BitVec.ofNat 16 (Config.fontBase + 5 * v.toNat)

/-- The decimal digits of a byte, most significant first (R133). -/
def bcdDigits (v : Byte) : List Byte :=
  [BitVec.ofNat 8 (v.toNat / 100), BitVec.ofNat 8 (v.toNat / 10 % 10), BitVec.ofNat 8 (v.toNat % 10)]

/-- The start column `V[x] mod 64` (R141). -/
def State.startColumn (s : State) (x : Reg) : Nat := (s.readV x).toNat % 64

/-- The start row `V[y] mod 32` (R141). -/
def State.startRow (s : State) (y : Reg) : Nat := (s.readV y).toNat % 32

/-- The `n` row bytes of the sprite at `I`, row 0 first, clipped rows included (R141, R142); `none` is
`raise OutOfBounds`. -/
def State.spriteRows (s : State) (n : Nibble) : Option (List Byte) := s.loadBytes (s.indexAddr 0) n.toNat

/-- The pixel of a row byte at column offset `c`: bit `7 - c` (R142). -/
def rowPixel (b : Byte) (c : Nat) : Bool := b.getLsbD (7 - c)

end Sys2Proof.Machine
end

