-- ==== Sys2Proof/Machine/ControlFlow.lean ====
section
/-! DEFINITION. The eight control-flow instructions (40_control_flow.md). `PC` already holds `a + 2` when a
meaning starts (R108). -/

namespace Sys2Proof.Machine

/-- `RET`: `t = Pop(); PC <- t`, or StackUnderflow (R100). -/
def execRet (s : State) : Outcome :=
  match s.pop with
  | some (t, s') => .next { s' with pc := t }
  | none => .next (takeFault .stackUnderflow s)

/-- `JP nnn`: `PC <- zext_16(nnn)` (R101). -/
def execJp (nnn : Addr12) (s : State) : Outcome := .next { s with pc := zext12 nnn }

/-- `CALL nnn`: `Push(PC); PC <- zext_16(nnn)`, or StackOverflow (R102). -/
def execCall (nnn : Addr12) (s : State) : Outcome :=
  match s.push s.pc with
  | some s' => .next { s' with pc := zext12 nnn }
  | none => .next (takeFault .stackOverflow s)

/-- `SE Vx, nn`: skip if `V[x] = nn` (R103). -/
def execSeVxNn (x : Reg) (nn : Byte) (s : State) : Outcome := .next (s.skipIf (s.readV x == nn))

/-- `SNE Vx, nn`: skip if `V[x] != nn` (R104). -/
def execSneVxNn (x : Reg) (nn : Byte) (s : State) : Outcome := .next (s.skipIf (s.readV x != nn))

/-- `SE Vx, Vy`: skip if `V[x] = V[y]` (R105). -/
def execSeVxVy (x y : Reg) (s : State) : Outcome := .next (s.skipIf (s.readV x == s.readV y))

/-- `SNE Vx, Vy`: skip if `V[x] != V[y]` (R106). -/
def execSneVxVy (x y : Reg) (s : State) : Outcome := .next (s.skipIf (s.readV x != s.readV y))

/-- `JP V0, nnn`: `PC <- zext_16(nnn) + zext_16(V[0])`, always `V[0]`, not reduced to 12 bits (R107). -/
def execJpV0Nnn (nnn : Addr12) (s : State) : Outcome :=
  .next { s with pc := zext12 nnn + zext8 (s.readV 0) }

end Sys2Proof.Machine
end

