-- ==== Sys2Proof/Machine/Flags.lean ====
section
/-! DEFINITION. The flags, always 0x00 or 0x01 in `VF` (10_state.md R21), by the laws of 41_load_arith_logic.md
R122, and the order of the two writes (R123). -/

namespace Sys2Proof.Machine

/-- A flag as the byte written to `VF`. -/
def flagByte (b : Bool) : Byte := if b then 0x01 else 0x00

/-- Carry out of `p + q` over the naturals: the sum exceeds 255 (R116). -/
def carryOut (p q : Byte) : Bool := decide (p.toNat + q.toNat > 255)

/-- No borrow in `p - q`: `p >= q` (R117, R119). -/
def noBorrow (p q : Byte) : Bool := decide (p.toNat ≥ q.toNat)

/-- The bit `SHR` shifts out (R118). -/
def bitOutRight (p : Byte) : Bool := p.getLsbD 0

/-- The bit `SHL` shifts out (R120). -/
def bitOutLeft (p : Byte) : Bool := p.getLsbD 7

/-- `V[x]` first, then the flag to `VF`: with `x = 0xF` the flag remains (R123). -/
def State.writeResultThenFlag (s : State) (x : Reg) (result : Byte) (flag : Bool) : State :=
  (s.writeV x result).writeV vf (flagByte flag)

end Sys2Proof.Machine
end

