-- ==== Sys2Proof/Machine/Display.lean ====
section
/-! DEFINITION. The two display instructions (43_display.md). The drawing is the rule's own loop over rows and
columns (R141). -/

namespace Sys2Proof.Machine

/-- What the drawing loop carries: `FB` and `hit`. -/
abbrev Canvas := Framebuffer × Bool

/-- A set sprite bit toggles its pixel; a pixel that goes from set to unset is a hit (R141). -/
def drawPixel (cv : Canvas) (x y : Nat) : Canvas := (cv.1.toggle x y, cv.2 || cv.1.pixel x y)

/-- The columns `c = 0 .. n-1` of a row byte; columns wrap to the left edge of the same row (R141). -/
def drawColumns (cv : Canvas) (b : Byte) (x0 yy : Nat) : Nat → Canvas
  | 0 => cv
  | c + 1 =>
    let cv' := drawColumns cv b x0 yy c
    if rowPixel b c then drawPixel cv' ((x0 + c) % 64) yy else cv'

/-- The rows from `yy` downward; a row below the bottom edge is dropped (R141). -/
def drawRows (cv : Canvas) : List Byte → Nat → Nat → Canvas
  | [], _, _ => cv
  | b :: bs, x0, yy =>
    drawRows (if yy ≤ 31 then drawColumns cv b x0 yy 8 else cv) bs x0 (yy + 1)

/-- `CLS`: every pixel unset; `VF` is not written (R140). -/
def execCls (s : State) : Outcome := .next { s with fb := Framebuffer.clear }

/-- `DRW Vx, Vy, n`: the sprite of `n` rows at `I` is XORed at `(V[x] mod 64, V[y] mod 32)`, `VF` = collision,
written last; OutOfBounds when a row byte does not exist, clipped rows included (R141). -/
def execDrwVxVyN (x y : Reg) (n : Nibble) (s : State) : Outcome :=
  match s.spriteRows n with
  | some rows =>
    let cv := drawRows (s.fb, false) rows (s.startColumn x) (s.startRow y)
    .next ({ s with fb := cv.1 }.writeV vf (flagByte cv.2))
  | none => .next (takeFault .outOfBounds s)

end Sys2Proof.Machine
end

