-- ==== Sys2Proof/Machine/IndexMemory.lean ====
section
/-! DEFINITION. The six index-register and memory instructions (42_index_memory.md). An instruction that accesses
several bytes is all-or-nothing (R136): when one of its addresses does not exist the fault is taken in the state
before the instruction, so nothing has been written. No access changes `I`. -/

namespace Sys2Proof.Machine

/-- `LD I, nnn` (R130). -/
def execLdINnn (nnn : Addr12) (s : State) : Outcome := .next { s with i := zext12 nnn }

/-- `ADD I, Vx`: modulo 2^16, no flag (R131). -/
def execAddIVx (x : Reg) (s : State) : Outcome := .next { s with i := s.i + zext8 (s.readV x) }

/-- `LD F, Vx`: `I <- FONT_BASE + 5 * V[x]`, on all 8 bits of `V[x]` (R132). -/
def execLdFVx (x : Reg) (s : State) : Outcome := .next { s with i := glyphAddr (s.readV x) }

/-- `LD B, Vx`: three decimal digits at `I`, `I + 1`, `I + 2`, or OutOfBounds (R133). -/
def execLdBVx (x : Reg) (s : State) : Outcome :=
  match s.storeBytes (s.indexAddr 0) (bcdDigits (s.readV x)) with
  | some s' => .next s'
  | none => .next (takeFault .outOfBounds s)

/-- `LD [I], Vx`: store `V[0] .. V[x]` at `I`, or OutOfBounds (R134). -/
def execLdMemVx (x : Reg) (s : State) : Outcome :=
  match s.storeBytes (s.indexAddr 0) (s.regBlock x) with
  | some s' => .next s'
  | none => .next (takeFault .outOfBounds s)

/-- `LD Vx, [I]`: load `V[0] .. V[x]` from `I`, or OutOfBounds (R135). -/
def execLdVxMem (x : Reg) (s : State) : Outcome :=
  match s.loadBytes (s.indexAddr 0) (x.toNat + 1) with
  | some bs => .next (s.writeRegs 0 bs)
  | none => .next (takeFault .outOfBounds s)

end Sys2Proof.Machine
end

