-- ==== Sys2Proof/Machine/LoadArithLogic.lean ====
section
/-! DEFINITION. The twelve register load, arithmetic, logic, shift and random instructions
(41_load_arith_logic.md). None raises an exception; all operands are read first (R123). -/

namespace Sys2Proof.Machine

/-- `LD Vx, nn` (R110). -/
def execLdVxNn (x : Reg) (nn : Byte) (s : State) : Outcome := .next (s.writeV x nn)

/-- `ADD Vx, nn`: modulo 256, no flag (R111). -/
def execAddVxNn (x : Reg) (nn : Byte) (s : State) : Outcome := .next (s.writeV x (s.readV x + nn))

/-- `LD Vx, Vy` (R112). -/
def execLdVxVy (x y : Reg) (s : State) : Outcome := .next (s.writeV x (s.readV y))

/-- `OR Vx, Vy`, no flag (R113). -/
def execOrVxVy (x y : Reg) (s : State) : Outcome := .next (s.writeV x (s.readV x ||| s.readV y))

/-- `AND Vx, Vy`, no flag (R114). -/
def execAndVxVy (x y : Reg) (s : State) : Outcome := .next (s.writeV x (s.readV x &&& s.readV y))

/-- `XOR Vx, Vy`, no flag (R115). -/
def execXorVxVy (x y : Reg) (s : State) : Outcome := .next (s.writeV x (s.readV x ^^^ s.readV y))

/-- `ADD Vx, Vy`: the sum modulo 256, `VF` = carry (R116). -/
def execAddVxVy (x y : Reg) (s : State) : Outcome :=
  let p := s.readV x
  let q := s.readV y
  .next (s.writeResultThenFlag x (p + q) (carryOut p q))

/-- `SUB Vx, Vy`: `V[x] - V[y]` modulo 256, `VF` = no borrow (R117). -/
def execSubVxVy (x y : Reg) (s : State) : Outcome :=
  let p := s.readV x
  let q := s.readV y
  .next (s.writeResultThenFlag x (p - q) (noBorrow p q))

/-- `SHR Vx`: right by one, `VF` = old bit 0 (R118). -/
def execShrVx (x : Reg) (s : State) : Outcome :=
  let p := s.readV x
  .next (s.writeResultThenFlag x (p >>> 1) (bitOutRight p))

/-- `SUBN Vx, Vy`: `V[y] - V[x]` modulo 256, `VF` = no borrow (R119). -/
def execSubnVxVy (x y : Reg) (s : State) : Outcome :=
  let p := s.readV x
  let q := s.readV y
  .next (s.writeResultThenFlag x (q - p) (noBorrow q p))

/-- `SHL Vx`: left by one, `VF` = old bit 7 (R120). -/
def execShlVx (x : Reg) (s : State) : Outcome :=
  let p := s.readV x
  .next (s.writeResultThenFlag x (p <<< 1) (bitOutLeft p))

/-- `RND Vx, nn`: `r = rnd8(); V[x] <- r & nn`; one byte is drawn (R121, 00_scope.md R11). The byte is the
free value `Config.rnd8` at the number of bytes drawn so far (notes/assumptions/2.md). -/
def execRndVxNn (x : Reg) (nn : Byte) (s : State) : Outcome :=
  .next { s.writeV x (Config.rnd8 s.draws &&& nn) with draws := s.draws + 1 }

end Sys2Proof.Machine
end

