-- ==== Sys2Proof/Machine/TimersKeys.lean ====
section
/-! DEFINITION. The six timer and key instructions (44_timers_keys.md). None raises an exception. -/

namespace Sys2Proof.Machine

/-- `SKP Vx`: skip if the key `V[x]` is pressed (R150). -/
def execSkpVx (x : Reg) (s : State) : Outcome := .next (s.skipIf (s.pressed (s.readV x)))

/-- `SKNP Vx`: skip if the key `V[x]` is not pressed (R151). -/
def execSknpVx (x : Reg) (s : State) : Outcome := .next (s.skipIf (!s.pressed (s.readV x)))

/-- `LD Vx, DT` (R152). -/
def execLdVxDt (x : Reg) (s : State) : Outcome := .next (s.writeV x s.dt)

/-- `LD Vx, K`: `RUN <- AwaitKey(x)`, nothing else; the register is written by the later key-press edge
(R153, 60_exceptions.md R182). -/
def execLdVxK (x : Reg) (s : State) : Outcome := .next { s with run := .awaitKey x }

/-- `LD DT, Vx` (R154). -/
def execLdDtVx (x : Reg) (s : State) : Outcome := .next { s with dt := s.readV x }

/-- `LD ST, Vx`: no value is special-cased (R155). -/
def execLdStVx (x : Reg) (s : State) : Outcome := .next { s with st := s.readV x }

end Sys2Proof.Machine
end

