-- ==== Sys2Proof/Machine/Events.lean ====
section
/-! DEFINITION. The events from outside: tick, key, cancel (60_exceptions.md R179 to R183), reset and
load_program (70_reset_and_hazards.md R200 to R202). Each is one atomic step and is enabled in every value of
`RUN` (R179, R194), but for `load_program`. -/

namespace Sys2Proof.Machine

/-- A timer counts down by 1 if nonzero and stays at 0 (R180). -/
def countDown (t : Byte) : Byte := if t.toNat > 0 then t - 1 else t

/-- `tick`: the two timers independently, in every value of `RUN` (R180). -/
def State.tick (s : State) : State := { s with dt := countDown s.dt, st := countDown s.st }

/-- Resume of a key wait: a press edge on key `code` writes `V[x] <- code` and makes `RUN` ready when it is
`AwaitKey(x)`, and does nothing more otherwise (R182). -/
def State.resumeWait (s : State) (code : Nat) : State :=
  match s.run with
  | .awaitKey x => { s.writeV x (BitVec.ofNat 8 code) with run := .ready }
  | _ => s

/-- `set_key(code, pressed)` (R181): a code above 15 has no effect, a press of a key already pressed is no
edge, a release is never an edge; a press edge resumes a key wait in the same event (R182). -/
def State.setKey (s : State) (code : Nat) (pressed : Bool) : State :=
  if code > 15 then s
  else if pressed then
    (if s.key code then s else (s.setKeyBit code true).resumeWait code)
  else s.setKeyBit code false

/-- `cancel`: `Ready` and `AwaitKey` become `Cancelled`; a fault record is kept (R183). -/
def State.cancel (s : State) : State :=
  match s.run with
  | .ready => { s with run := .cancelled }
  | .awaitKey _ => { s with run := .cancelled }
  | .faulted _ => s
  | .cancelled => s

/-- `reset`, from any state (R200): every piece of the core's state takes its reset value. The random source
and the host's coming moves lie outside the core and are kept (notes/assumptions/3.md). -/
def State.resetEvent (s : State) : State :=
  { State.reset with draws := s.draws, schedule := s.schedule }

/-- `load_program(bytes)` (R202): an image that fits is copied to 0x200 upward; one that does not writes
nothing and is reported as `ProgramTooLarge` (R175). -/
def State.loadProgram (s : State) (image : List Byte) : State :=
  if imageFits image then
    { s.storeBlock Config.progBase image with loadReport := some .ok }
  else { s with loadReport := some .programTooLarge }

/-- One event from outside. Loading is applied before the first instruction step only; afterwards it is
refused by name, since the spec allows none and gives it no effect (R202, decision D27). -/
def hostEvent (e : HostEvent) (s : State) : Outcome :=
  match e with
  | .tick => .next s.tick
  | .setKey code pressed => .next (s.setKey code pressed)
  | .cancel => .next s.cancel
  | .reset => .next s.resetEvent
  | .loadProgram image => if s.launched then .refused .loadDuringRun else .next (s.loadProgram image)

end Sys2Proof.Machine
end

