-- ==== Sys2Proof/Machine/Executor.lean ====
section
/-! DEFINITION. The instruction step (30_encoding.md R74), the Executor's turn, and whose turn a step is
(00_scope.md R12). -/

namespace Sys2Proof.Machine

/-- The state in which the fetched instruction executes: `PC` advanced past its word, a step taken. -/
def State.afterFetch (s : State) : State := { s with pc := s.pc + 2, launched := true }

/-- One instruction step (R74): fetch at `PC` (OutOfBounds leaves `PC` at the word's address), advance `PC`,
decode (an Unknown word raises with `PC = a + 2`), execute. -/
def instructionStep (s : State) : Outcome :=
  match s.memRead2 s.pc.toNat with
  | none => .next (takeFault .outOfBounds { s with launched := true })
  | some w =>
    match decodeWord w with
    | none => .next (takeUnknown unknownPolicy w s.afterFetch)
    | some i => exec i s.afterFetch

/-- The Executor's turn: an instruction step exactly when `RUN = Ready` (R29, R74). DESIGN CHOICE: the turn does not
ask whether a `load_program` has succeeded, so one that comes before any load, or after one that failed, executes
what memory holds (R175, R203; notes/assumptions/17.md). While a key is awaited
nothing happens (notes/assumptions/7.md); after a fault or a cancellation the run has ended and the model stops
by name (R184, R207; notes/assumptions/8.md). -/
def executorTurn (s : State) : Outcome :=
  match s.run with
  | .ready => instructionStep s
  | .awaitKey _ => .next s
  | .faulted kind => .fault (.runFaulted kind)
  | .cancelled => .fault .runCancelled

/-- One atomic step of the whole machine: the move at the head of the schedule, or the Executor's when none is
scheduled (R12, R192; notes/assumptions/1.md). -/
def takeTurn (s : State) : Outcome :=
  match s.schedule with
  | [] => executorTurn s
  | .executor :: rest => executorTurn { s with schedule := rest }
  | .host e :: rest => hostEvent e { s with schedule := rest }

/-- The address at which the next instruction is placed: `PC`, or 0x200 when no word can be fetched at `PC`. -/
def State.placePc (s : State) : Word :=
  if s.pc.toNat + 1 < Config.memSize then s.pc else BitVec.ofNat 16 Config.progBase

/-- A word stored where the next instruction step fetches, high byte first, with the Executor ready and to
move next. -/
def State.placeWord (s : State) (w : Word) : State :=
  { s with
    pc := s.placePc
    run := .ready
    schedule := []
    mem := s.mem.writeBlock s.placePc.toNat (bytesOfWord w) }

end Sys2Proof.Machine
end

