-- ==== Sys2Proof/Machine/Step.lean ====
section
/-! DEFINITION. One step of the machine, and the placing of an instruction word where the next step fetches. -/

namespace Sys2Proof.Machine

/-- One step: one move of one agent (00_scope.md R12). -/
def step (s : State) : Host.Outcome State Fault Refusal := takeTurn s

/-- `s` with the instruction word `w` (bits above `nbits` zero) stored where `step` fetches next; it stands for
the load of a program from outside (70_reset_and_hazards.md R202, R203; notes/assumptions/10.md). -/
def State.withFetchWord (s : State) (nbits w : Nat) : State :=
  s.placeWord (BitVec.ofNat 16 (w % 2 ^ nbits))

end Sys2Proof.Machine
end

