-- ==== Sys2Proof/Safety.lean ====
section
/-! DEFINITION. The terms claims are stated in: which pieces of state a step leaves unchanged, the invariant of the
machine, which error each instruction raises (60_exceptions.md R170 to R173), what a sprite covers
(43_display.md R141, R142), and where a run stands still (70_reset_and_hazards.md R207). -/

namespace Sys2Proof.Machine

/-! ## Frames -/

/-- The pieces of the state: those of 10_state.md, then the model's own. -/
inductive Piece where
  | v | i | pc | stack | dt | st | fb | k | mem | run
  | draws | launched | loadReport | schedule
  deriving DecidableEq, Repr

/-- The piece is the same in both states. `stack` is all slots and `SP`; `mem` is every byte of memory, as the
model reads it. -/
def Piece.same (p : Piece) (s t : State) : Prop :=
  match p with
  | .v => t.v = s.v
  | .i => t.i = s.i
  | .pc => t.pc = s.pc
  | .stack => t.stack = s.stack ∧ t.sp = s.sp
  | .dt => t.dt = s.dt
  | .st => t.st = s.st
  | .fb => t.fb = s.fb
  | .k => t.k = s.k
  | .mem => ∀ a, t.mem.read a = s.mem.read a
  | .run => t.run = s.run
  | .draws => t.draws = s.draws
  | .launched => t.launched = s.launched
  | .loadReport => t.loadReport = s.loadReport
  | .schedule => t.schedule = s.schedule

/-- Every piece but the listed ones is unchanged from `s` to `t`. -/
def Unchanged (changed : List Piece) (s t : State) : Prop := ∀ p, p ∉ changed → p.same s t

/-- Every general register but the listed ones is unchanged from `s` to `t`. -/
def RegsUnchanged (changed : List Reg) (s t : State) : Prop := ∀ r, r ∉ changed → t.readV r = s.readV r

/-- Every byte of memory outside the `n` bytes from `base` reads as before. -/
def MemUnchangedOutside (base n : Nat) (s t : State) : Prop :=
  ∀ a, ¬ (base ≤ a ∧ a < base + n) → t.mem.read a = s.mem.read a

/-! ## The invariant -/

/-- The memory is in canonical form, `PC` is at most 0x10FE ("the largest value any rule can produce",
10_state.md R23), and every occupied stack slot holds at most 0x1000, the address after the last word of
memory. -/
abbrev State.Inv (s : State) : Prop :=
  s.mem.wf = true ∧ s.pc.toNat ≤ 0x10FE ∧
    ∀ j : Fin 12, j.val < s.sp.val → (s.stack[j.val]'j.isLt).toNat ≤ 0x1000

/-! ## Errors -/

/-- The error an instruction raises in a state, if any: the table of 60_exceptions.md R170 with the conditions of
R171 (b) to (d), R172 and R173. -/
def faultOf (i : Instr) (s : State) : Option FaultKind :=
  match i with
  | .ret => if s.sp.val = 0 then some .stackUnderflow else none
  | .call _ => if s.sp.val = 12 then some .stackOverflow else none
  | .drwVxVyN _ _ n => if n.toNat > 0 ∧ s.i.toNat + n.toNat - 1 ≥ 4096 then some .outOfBounds else none
  | .ldBVx _ => if s.i.toNat + 2 ≥ 4096 then some .outOfBounds else none
  | .ldMemVx x | .ldVxMem x => if s.i.toNat + x.toNat ≥ 4096 then some .outOfBounds else none
  | .cls | .jp _ | .seVxNn _ _ | .sneVxNn _ _ | .seVxVy _ _ | .ldVxNn _ _ | .addVxNn _ _ | .ldVxVy _ _
  | .orVxVy _ _ | .andVxVy _ _ | .xorVxVy _ _ | .addVxVy _ _ | .subVxVy _ _ | .shrVx _ | .subnVxVy _ _
  | .shlVx _ | .sneVxVy _ _ | .ldINnn _ | .jpV0Nnn _ | .rndVxNn _ _ | .skpVx _ | .sknpVx _ | .ldVxDt _
  | .ldVxK _ | .ldDtVx _ | .ldStVx _ | .addIVx _ | .ldFVx _ => none

/-- The move of the next step is the Executor's, and `rest` are the moves after it: its turn stands at the head of
the schedule, or nothing is scheduled (00_scope.md R12; notes/assumptions/1.md). -/
abbrev State.ExecutorMovesNext (s : State) (rest : List Turn) : Prop :=
  s.schedule = .executor :: rest ∨ (s.schedule = [] ∧ rest = [])

/-- The run has ended in error (R207 (1)). -/
def State.IsFaulted (s : State) : Prop := ∃ kind, s.run = .faulted kind

/-- The host ended the run (R207 (2)). -/
def State.IsCancelled (s : State) : Prop := s.run = .cancelled

/-- A self-jump: `RUN = Ready` and the word at `PC` is `JP PC` (R207 (3)). -/
def State.AtSelfJump (s : State) : Prop :=
  s.run = .ready ∧ s.pc.toNat ≤ 0x0FFE ∧
    (s.mem.read s.pc.toNat).toNat * 256 + (s.mem.read (s.pc.toNat + 1)).toNat = 0x1000 + s.pc.toNat

/-! ## What writes what -/

/-- The instructions that write `VF` as a flag (10_state.md R21). -/
def writesFlag : Instr → Bool
  | .addVxVy _ _ | .subVxVy _ _ | .shrVx _ | .subnVxVy _ _ | .shlVx _ | .drwVxVyN _ _ _ => true
  | .cls | .ret | .jp _ | .call _ | .seVxNn _ _ | .sneVxNn _ _ | .seVxVy _ _ | .ldVxNn _ _ | .addVxNn _ _
  | .ldVxVy _ _ | .orVxVy _ _ | .andVxVy _ _ | .xorVxVy _ _ | .sneVxVy _ _ | .ldINnn _ | .jpV0Nnn _
  | .rndVxNn _ _ | .skpVx _ | .sknpVx _ | .ldVxDt _ | .ldVxK _ | .ldDtVx _ | .ldStVx _ | .addIVx _
  | .ldFVx _ | .ldBVx _ | .ldMemVx _ | .ldVxMem _ => false

/-- The highest-numbered register an instruction writes as its destination, `none` if it writes none. For
`LD Vx, [I]` the block reaches up to it; for every other instruction it is the only one. -/
def destination : Instr → Option Reg
  | .ldVxNn x _ | .addVxNn x _ | .ldVxVy x _ | .orVxVy x _ | .andVxVy x _ | .xorVxVy x _ | .addVxVy x _
  | .subVxVy x _ | .shrVx x | .subnVxVy x _ | .shlVx x | .rndVxNn x _ | .ldVxDt x | .ldVxMem x => some x
  | .cls | .ret | .jp _ | .call _ | .seVxNn _ _ | .sneVxNn _ _ | .seVxVy _ _ | .sneVxVy _ _ | .ldINnn _
  | .jpV0Nnn _ | .drwVxVyN _ _ _ | .skpVx _ | .sknpVx _ | .ldVxK _ | .ldDtVx _ | .ldStVx _ | .addIVx _
  | .ldFVx _ | .ldBVx _ | .ldMemVx _ => none

/-- The instructions that load `PC` or advance it further (10_state.md R23). -/
def writesPc : Instr → Bool
  | .ret | .jp _ | .call _ | .seVxNn _ _ | .sneVxNn _ _ | .seVxVy _ _ | .sneVxVy _ _ | .jpV0Nnn _
  | .skpVx _ | .sknpVx _ => true
  | .cls | .ldVxNn _ _ | .addVxNn _ _ | .ldVxVy _ _ | .orVxVy _ _ | .andVxVy _ _ | .xorVxVy _ _
  | .addVxVy _ _ | .subVxVy _ _ | .shrVx _ | .subnVxVy _ _ | .shlVx _ | .ldINnn _ | .rndVxNn _ _
  | .drwVxVyN _ _ _ | .ldVxDt _ | .ldVxK _ | .ldDtVx _ | .ldStVx _ | .addIVx _ | .ldFVx _ | .ldBVx _
  | .ldMemVx _ | .ldVxMem _ => false

/-- The instructions that write `I` (10_state.md R22). -/
def writesIndex : Instr → Bool
  | .ldINnn _ | .addIVx _ | .ldFVx _ => true
  | .cls | .ret | .jp _ | .call _ | .seVxNn _ _ | .sneVxNn _ _ | .seVxVy _ _ | .ldVxNn _ _ | .addVxNn _ _
  | .ldVxVy _ _ | .orVxVy _ _ | .andVxVy _ _ | .xorVxVy _ _ | .addVxVy _ _ | .subVxVy _ _ | .shrVx _
  | .subnVxVy _ _ | .shlVx _ | .sneVxVy _ _ | .jpV0Nnn _ | .rndVxNn _ _ | .drwVxVyN _ _ _ | .skpVx _
  | .sknpVx _ | .ldVxDt _ | .ldVxK _ | .ldDtVx _ | .ldStVx _ | .ldBVx _ | .ldMemVx _ | .ldVxMem _ => false

/-- The instructions that read or write a timer (10_state.md R25). -/
def usesTimers : Instr → Bool
  | .ldVxDt _ | .ldDtVx _ | .ldStVx _ => true
  | .cls | .ret | .jp _ | .call _ | .seVxNn _ _ | .sneVxNn _ _ | .seVxVy _ _ | .ldVxNn _ _ | .addVxNn _ _
  | .ldVxVy _ _ | .orVxVy _ _ | .andVxVy _ _ | .xorVxVy _ _ | .addVxVy _ _ | .subVxVy _ _ | .shrVx _
  | .subnVxVy _ _ | .shlVx _ | .sneVxVy _ _ | .ldINnn _ | .jpV0Nnn _ | .rndVxNn _ _ | .drwVxVyN _ _ _
  | .skpVx _ | .sknpVx _ | .ldVxK _ | .addIVx _ | .ldFVx _ | .ldBVx _ | .ldMemVx _ | .ldVxMem _ => false

/-! ## Sprites -/

/-- A set bit of the sprite of `DRW Vx, Vy, n` falls on the pixel at column `px`, row `py` of the grid: row `r`
of the sprite at row `y0 + r`, column offset `c` at column `(x0 + c) mod 64`, its bit `7 - c` of the byte at
`I + r` (R141, R142). A row below the bottom edge covers no pixel with `py < 32`. -/
abbrev State.SpriteCovers (s : State) (x y : Reg) (n : Nibble) (px py : Nat) : Prop :=
  ∃ r, r < n.toNat ∧ ∃ c, c < 8 ∧ py = (s.readV y).toNat % 32 + r ∧
    px = ((s.readV x).toNat % 64 + c) % 64 ∧ (s.mem.read (s.i.toNat + r)).getLsbD (7 - c) = true

/-- Some pixel of the grid that is set is covered by a set sprite bit: it goes from 1 to 0 (R141). -/
abbrev State.Collides (s : State) (x y : Reg) (n : Nibble) : Prop :=
  ∃ px, px < 64 ∧ ∃ py, py < 32 ∧ s.fb.pixel px py = true ∧ s.SpriteCovers x y n px py

end Sys2Proof.Machine
end

