-- ==== Sys2Proof/Certificates/Slice0/Obligations.lean ====
section
/-! DEFINITION. The statements for the provers: encodings, reset, memory, stack, the step and the events from
outside, whole-machine rules, and what each instruction does and leaves unchanged. -/

open Sys2Proof Sys2Proof.Machine

/-! ## Encoding (30_encoding.md) -/

/-- R71, whole: the fields of a word by the source's masks and shifts, and how they overlap. -/
def Obligations.FieldsOfWord : Prop :=
  ∀ w : Word,
    (fieldOp w).setWidth 16 <<< 12 = w &&& 0xF000#16 ∧
    (fieldX w).setWidth 16 = (w &&& 0x0F00#16) >>> 8 ∧
    (fieldY w).setWidth 16 = (w &&& 0x00F0#16) >>> 4 ∧
    (fieldN w).setWidth 16 = w &&& 0x000F#16 ∧
    (fieldNn w).setWidth 16 = w &&& 0x00FF#16 ∧
    (fieldNnn w).setWidth 16 = w &&& 0x0FFF#16 ∧
    (fieldNn w).toNat = (fieldY w).toNat * 16 + (fieldN w).toNat ∧
    (fieldNnn w).toNat = (fieldX w).toNat * 256 + (fieldNn w).toNat

/-- Words and vectors written out in the rules and in 95_test_vectors.md, one or more of each family. The
patterns, but for ANNN and DXYN, are the spec's general knowledge (decision D21, log entry 12). -/
def Obligations.WrittenOutWordsDecode : Prop :=
  decodeWord 0x00E0 = some .cls ∧ decodeWord 0x00EE = some .ret ∧
  decodeWord 0x1204 = some (.jp 0x204) ∧ decodeWord 0x2208 = some (.call 0x208) ∧
  decodeWord 0x3100 = some (.seVxNn 1 0x00) ∧ decodeWord 0x5011 = some (.seVxVy 0 1) ∧
  decodeWord 0x60EA = some (.ldVxNn 0 0xEA) ∧ decodeWord 0x8014 = some (.addVxVy 0 1) ∧
  decodeWord 0x8126 = some (.shrVx 1) ∧ decodeWord 0xA050 = some (.ldINnn 0x050) ∧
  decodeWord 0xC20F = some (.rndVxNn 2 0x0F) ∧ decodeWord 0xD015 = some (.drwVxVyN 0 1 5) ∧
  decodeWord 0xE39E = some (.skpVx 3) ∧ decodeWord 0xF20A = some (.ldVxK 2) ∧
  decodeWord 0xF265 = some (.ldVxMem 2) ∧
  decodeWord 0x0000 = none ∧ decodeWord 0x01E0 = none ∧ decodeWord 0x8008 = none ∧
  decodeWord 0xE09F = none ∧ decodeWord 0xF066 = none

/-- Decode and encode agree: the word of every instruction, with every operand at every value, decodes to that
instruction, and so do its two bytes, high byte first, whatever follows them (R52, R75 to R79). -/
def Obligations.DecodeOfEncode : Prop :=
  ∀ i : Instr, decodeWord (encode i) = some i ∧
    ∀ rest : List Byte, decodeBytes (bytesOfWord (encode i) ++ rest) = .instr i rest

/-- The other direction: the instruction a word decodes to is encoded as that word with the bits that R80 and R81
call ignored cleared, so no other bit of a word is dropped. -/
def Obligations.EncodeOfDecode : Prop :=
  ∀ (w : Word) (i : Instr), decodeWord w = some i → encode i = canonicalWord w

/-- The decoder and the opcode table's 34 masks and matches agree on every word (R87): a decoded word belongs to
its instruction's row, and a word that belongs to a row decodes to an instruction of that row. So the rows are
disjoint, and a word that belongs to none is Unknown. -/
def Obligations.DecoderMatchesOpcodeTable : Prop :=
  ∀ w : Word,
    (∀ i, decodeWord w = some i → i.row ∈ opcodeTable ∧ i.row.covers w = true) ∧
    (∀ r, r ∈ opcodeTable → r.covers w = true → ∃ i, decodeWord w = some i ∧ i.row = r)

/-- Of the 65536 words, 13902 are Unknown (R82). -/
def Obligations.UnknownWordCount : Prop :=
  (List.range 65536).countP (fun n => (decodeWord (BitVec.ofNat 16 n)).isNone) = 13902

/-! ## Reset, load, invariant -/

/-- The table of 10_state.md R33, with the font copy of R31 and R201. Every value but the font copy's place and the
cleared framebuffer is the spec's own choice (decision D8, log entry 4), and the font bytes are its general
knowledge (decision D4, log entry 6). -/
def Obligations.ResetStateValues : Prop :=
  (∀ x, State.reset.readV x = 0x00) ∧ State.reset.i = 0x0000 ∧ State.reset.pc = 0x0200 ∧
  State.reset.sp.val = 0 ∧ State.reset.dt = 0x00 ∧ State.reset.st = 0x00 ∧
  (∀ x y, State.reset.fb.pixel x y = false) ∧ (∀ c, State.reset.key c = false) ∧
  State.reset.run = .ready ∧
  (∀ a, a < 0x050 ∨ 0x0A0 ≤ a → State.reset.mem.read a = 0x00) ∧
  (List.range 80).map (fun j => State.reset.mem.read (0x050 + j)) =
    [0xF0, 0x90, 0x90, 0x90, 0xF0, 0x20, 0x60, 0x20, 0x20, 0x70, 0xF0, 0x10, 0xF0, 0x80, 0xF0,
     0xF0, 0x10, 0xF0, 0x10, 0xF0, 0x90, 0x90, 0xF0, 0x10, 0x10, 0xF0, 0x80, 0xF0, 0x10, 0xF0,
     0xF0, 0x80, 0xF0, 0x90, 0xF0, 0xF0, 0x10, 0x20, 0x40, 0x40, 0xF0, 0x90, 0xF0, 0x90, 0xF0,
     0xF0, 0x90, 0xF0, 0x10, 0xF0, 0xF0, 0x90, 0xF0, 0x90, 0x90, 0xE0, 0x90, 0xE0, 0x90, 0xE0,
     0xF0, 0x80, 0x80, 0x80, 0xF0, 0xE0, 0x90, 0x90, 0x90, 0xE0, 0xF0, 0x80, 0xF0, 0x80, 0xF0,
     0xF0, 0x80, 0xF0, 0x80, 0x80]

/-- The invariant holds at reset. -/
def Obligations.ResetMeetsInvariant : Prop := State.reset.Inv

/-- Every step of every agent keeps the invariant: the memory in canonical form, `PC` at most 0x10FE (10_state.md
R23: "the largest value any rule can produce is 0x10FE") and every occupied stack slot at most 0x1000. -/
def Obligations.StepKeepsInvariant : Prop := ∀ s t, s.Inv → step s = .next t → t.Inv

/-- `reset` from any state: every piece of the core takes its value in `State.reset`, and only the model's draws counter
and the moves still to come are kept (70_reset_and_hazards.md R200, R201; decision D8, log entries 3 and 4). The stack
slots, which R33 leaves unspecified, are 0x0000 by the model's choice (log entry 5), and `launched` and `loadReport`,
fields of the model's own, go back to their values at reset by its choice too (log entry 9). -/
def Obligations.ResetEventRestoresReset : Prop :=
  ∀ s rest, s.schedule = .host .reset :: rest →
    ∃ t, step s = .next t ∧ Unchanged [.draws, .schedule] State.reset t ∧ t.draws = s.draws ∧
      t.schedule = rest

/-- `load_program` before the first instruction step: an image that fits is copied byte for byte to 0x200 upward
and nothing else changes but the report; one that does not fit writes nothing and is reported as too large; after
the first instruction step loading is refused (R202, R175; decision D27, log entry 9). -/
def Obligations.LoadProgramCopiesImage : Prop :=
  ∀ s image rest, s.schedule = .host (.loadProgram image) :: rest →
    (s.launched = false → 0x200 + image.length ≤ 4096 → s.mem.wf = true →
      ∃ t, step s = .next t ∧ (∀ j (h : j < image.length), t.mem.read (0x200 + j) = image[j]) ∧
        MemUnchangedOutside 0x200 image.length s t ∧ t.loadReport = some .ok ∧ t.schedule = rest ∧
        Unchanged [.mem, .loadReport, .schedule] s t) ∧
    (s.launched = false → 0x200 + image.length > 4096 →
      ∃ t, step s = .next t ∧ t.loadReport = some .programTooLarge ∧ t.schedule = rest ∧
        Unchanged [.loadReport, .schedule] s t) ∧
    (s.launched = true → step s = .refused .loadDuringRun)

/-! ## Memory and stack -/

/-- R7: `MemRead(addr, n)` for `n` = 1 and 2. `none` is the raise of OutOfBounds; the fetch and the loads turn it
into the fault. `MEM_SIZE` is the spec's parameter, whose value 4096 is decision D1 (log entry 13). -/
def Obligations.MemReadChecksBounds : Prop :=
  ∀ (s : State) (a : Nat),
    (a + 1 - 1 ≥ Config.memSize → s.memRead1 a = none) ∧
    (a + 1 - 1 < Config.memSize → s.memRead1 a = some (s.mem.read a)) ∧
    (a + 2 - 1 ≥ Config.memSize → s.memRead2 a = none) ∧
    (a + 2 - 1 < Config.memSize → ∃ w, s.memRead2 a = some w ∧
      w.toNat = (s.mem.read a).toNat * 256 + (s.mem.read (a + 1)).toNat)

/-- R8: `MemWrite(addr, 1, v)` and its law, in a memory in canonical form: a byte written in bounds is read back,
every other byte and every other piece of state is as before, and out of bounds both fail. `MEM_SIZE` is the spec's parameter (decision D1, log entry 13). -/
def Obligations.MemWriteThenRead : Prop :=
  ∀ (s : State) (a : Nat) (b : Byte), s.mem.wf = true →
    (a ≥ Config.memSize → s.memWrite a b = none ∧ s.memRead1 a = none) ∧
    (a < Config.memSize → ∃ t, s.memWrite a b = some t ∧ t.memRead1 a = some b ∧ t.mem.wf = true ∧
      MemUnchangedOutside a 1 s t ∧ Unchanged [.mem] s t)

/-- Memories in canonical form that read the same at every address are equal data. -/
def Obligations.CanonicalMemoriesEqual : Prop :=
  ∀ m m' : Memory, m.wf = true → m'.wf = true → (∀ a, m.read a = m'.read a) → m = m'

/-- R10, whole: `Push(a)` and `Pop()`. `none` is the raise, and the two clauses on `exec` say which error it
becomes. -/
def Obligations.PushAndPop : Prop :=
  ∀ (s : State) (a : Word),
    (s.sp.val = 12 → s.push a = none ∧
      ∀ nnn, exec (.call nnn) s = .next { s with run := .faulted .stackOverflow }) ∧
    (∀ h : s.sp.val < 12, ∃ t, s.push a = some t ∧ t.stack[s.sp.val] = a ∧ t.sp.val = s.sp.val + 1 ∧
      (∀ (j : Nat) (hj : j < 12), j ≠ s.sp.val → t.stack[j] = s.stack[j]) ∧ Unchanged [.stack] s t) ∧
    (s.sp.val = 0 → s.pop = none ∧ exec .ret s = .next { s with run := .faulted .stackUnderflow }) ∧
    (∀ (n : Nat) (hn : n < 12), s.sp.val = n + 1 → ∃ t, s.pop = some (s.stack[n], t) ∧ t.sp.val = n ∧
      t.stack = s.stack ∧ Unchanged [.stack] s t)

/-- LIFO (10_state.md R24): a `CALL` that completes, then a `RET` in any later state with the same stack, goes back
to the address after the `CALL`, with the depth and the occupied slots as they were. -/
def Obligations.CallThenReturn : Prop :=
  ∀ (s u : State) (nnn : Addr12), s.sp.val < 12 →
    ∃ t, exec (.call nnn) s = .next t ∧
      (u.stack = t.stack → u.sp = t.sp →
        ∃ r, exec .ret u = .next r ∧ r.pc = s.pc ∧ r.sp = s.sp ∧
          ∀ (j : Nat) (hj : j < 12), j < s.sp.val → r.stack[j] = s.stack[j])

/-! ## The step and the events from outside -/

/-- A step runs the decoded instruction: when the Executor is ready and moves next, and the two bytes at `PC` decode
to `i`, the step is `exec i` in the state with `PC` advanced past the word, `launched` set and nothing else
changed; and the same when its turn is scheduled, which the step takes off the schedule (R74, R12). -/
def Obligations.StepRunsDecodedInstruction : Prop :=
  ∀ (s : State) (i : Instr) (rest : List Byte), s.run = .ready → s.pc.toNat + 1 < 4096 →
    decodeBytes (s.mem.read s.pc.toNat :: s.mem.read (s.pc.toNat + 1) :: rest) = .instr i rest →
    (s.schedule = [] → step s = exec i { s with pc := s.pc + 2, launched := true }) ∧
    (∀ turns, s.schedule = .executor :: turns →
      step s = exec i { s with schedule := turns, pc := s.pc + 2, launched := true })

/-- The instruction step case by case (R74, R177), whenever `RUN` is ready and the Executor moves next, with its turn
scheduled or with nothing scheduled: a fetch outside memory faults with `PC` unadvanced, an Unknown word faults with
`PC = a + 2` and the word recorded (decision D9, log entry 11), every other word is executed. -/
def Obligations.InstructionStepCases : Prop :=
  ∀ (s : State) (rest : List Turn), s.run = .ready → s.ExecutorMovesNext rest →
    (s.pc.toNat + 1 ≥ 4096 →
      step s = .next { s with schedule := rest, launched := true, run := .faulted .outOfBounds }) ∧
    (∀ w : Word, s.pc.toNat + 1 < 4096 →
      w.toNat = (s.mem.read s.pc.toNat).toNat * 256 + (s.mem.read (s.pc.toNat + 1)).toNat →
      (decodeWord w = none →
        step s = .next { s with schedule := rest, pc := s.pc + 2, launched := true,
                                run := .faulted (.unknownInstruction w) }) ∧
      (∀ i, decodeWord w = some i →
        step s = exec i { s with schedule := rest, pc := s.pc + 2, launched := true }))

/-- No instruction step is enabled unless `RUN = Ready` (10_state.md R29), whether the Executor's turn is scheduled or
nothing is. That its turn then changes nothing in `AwaitKey`, but is taken off the schedule, and stops the model by
name in `Faulted` and `Cancelled` is the model's choice (log entries 7 and 8). -/
def Obligations.NoInstructionStepUnlessReady : Prop :=
  ∀ (s : State) (rest : List Turn), s.ExecutorMovesNext rest →
    (∀ x, s.run = .awaitKey x → step s = .next { s with schedule := rest }) ∧
    (∀ kind, s.run = .faulted kind → step s = .fault (.runFaulted kind)) ∧
    (s.run = .cancelled → step s = .fault .runCancelled)

/-- Nothing leaves `Faulted` or `Cancelled` but `reset`, and a fault record is never changed (10_state.md R29, R30,
60_exceptions.md R184; decision D10, log entry 14). -/
def Obligations.OnlyResetLeavesEndedRun : Prop :=
  ∀ s t : State, (s.IsFaulted ∨ s.IsCancelled) → step s = .next t →
    t.run = s.run ∨ ∃ rest, s.schedule = .host .reset :: rest

/-- `tick` (R180): each timer counts down by 1 if nonzero and stays at 0, in every value of `RUN` (for `Faulted` and
`Cancelled` decision D18, log entry 14); nothing else changes. -/
def Obligations.TickCountsTimersDown : Prop :=
  ∀ s rest, s.schedule = .host .tick :: rest →
    ∃ t, step s = .next t ∧ t.dt.toNat = (if s.dt.toNat > 0 then s.dt.toNat - 1 else 0) ∧
      t.st.toNat = (if s.st.toNat > 0 then s.st.toNat - 1 else 0) ∧ t.schedule = rest ∧
      Unchanged [.dt, .st, .schedule] s t

/-- `set_key` (R181) and the resume of a key wait (R182): a code above 15 and a press of a key already pressed have no
effect; a press edge sets the key and, in `AwaitKey(x)`, writes the code to `V[x]` and makes `RUN` ready; a release
clears the key (decisions D15 and D16, log entry 14). -/
def Obligations.SetKeyAndResume : Prop :=
  ∀ s code pressed rest, s.schedule = .host (.setKey code pressed) :: rest →
    ∃ t, step s = .next t ∧ t.schedule = rest ∧
      (if code > 15 then Unchanged [.schedule] s t
       else if pressed = true then
         (if s.key code = true then Unchanged [.schedule] s t
          else t.key code = true ∧ (∀ c, c ≠ code → t.key c = s.key c) ∧
            (∀ x, s.run = .awaitKey x → t.run = .ready ∧ (t.readV x).toNat = code ∧ RegsUnchanged [x] s t ∧
              Unchanged [.k, .v, .run, .schedule] s t) ∧
            ((∀ x, s.run ≠ .awaitKey x) → Unchanged [.k, .schedule] s t))
       else t.key code = false ∧ (∀ c, c ≠ code → t.key c = s.key c) ∧ Unchanged [.k, .schedule] s t)

/-- `cancel` (R183): `Ready` and `AwaitKey` become `Cancelled`, a fault record and a cancellation are kept, nothing
else changes (decision D17, log entry 14). -/
def Obligations.CancelEndsRun : Prop :=
  ∀ s rest, s.schedule = .host .cancel :: rest →
    ∃ t, step s = .next t ∧ t.schedule = rest ∧ Unchanged [.run, .schedule] s t ∧
      ((s.run = .ready ∨ ∃ x, s.run = .awaitKey x) → t.run = .cancelled) ∧
      ((s.IsFaulted ∨ s.IsCancelled) → t.run = s.run)

/-- A key wait is left only by a press edge, to `Ready`, by `cancel`, to `Cancelled`, or by `reset` (10_state.md R29,
60_exceptions.md R191). -/
def Obligations.KeyWaitEndsOnlyByEvent : Prop :=
  ∀ (s t : State) (x : Reg), s.run = .awaitKey x → step s = .next t →
    t.run = .awaitKey x ∨
    (∃ code rest, s.schedule = .host (.setKey code true) :: rest ∧ code ≤ 15 ∧ s.key code = false ∧
      t.run = .ready) ∨
    (∃ rest, s.schedule = .host .cancel :: rest ∧ t.run = .cancelled) ∨
    (∃ rest, s.schedule = .host .reset :: rest ∧ t.run = .ready)

/-- Ticks and instructions are independent (00_scope.md R12, 60_exceptions.md R192): an instruction that names no timer
gives the same state whether a tick comes before it or after it. -/
def Obligations.TickCommutesWithInstruction : Prop :=
  ∀ (i : Instr) (s t : State), usesTimers i = false → exec i s = .next t →
    exec i s.tick = .next t.tick

/-- Every instruction step from a self-jump leaves the state unchanged, the Executor's turn off the schedule apart
(40_control_flow.md R101, 70_reset_and_hazards.md R207 (3)); the premise on `launched`, a field of the model's own, says
that a step has been taken before (log entry 9). With nothing scheduled the state after is `s` itself. -/
def Obligations.SelfJumpStandsStill : Prop :=
  ∀ (s : State) (rest : List Turn), s.AtSelfJump → s.launched = true → s.ExecutorMovesNext rest →
    step s = .next { s with schedule := rest }

/-- A store is seen by the next fetch (20_memory.md R62; decision D24, log entry 13): after `LD [I], Vx` with `x >= 1`,
the word fetched at `I` is `V[0]` then `V[1]`. -/
def Obligations.StoreSeenByFetch : Prop :=
  ∀ (s : State) (x : Reg), s.mem.wf = true → 1 ≤ x.toNat → s.i.toNat + x.toNat < 4096 →
    ∃ t w, exec (.ldMemVx x) s = .next t ∧ t.memRead2 s.i.toNat = some w ∧
      w.toNat = (s.readV 0).toNat * 256 + (s.readV 1).toNat

/-! ## Whole-machine rules -/

/-- Fault entry (60_exceptions.md R170 to R173, R176): in each case of the table the instruction takes its error in a
next state in which `RUN` is the fault and nothing else has changed: no write of the instruction, `PC` as advanced
(decisions D10 and D12, log entries 13 and 14). -/
def Obligations.FaultEntryIsPrecise : Prop :=
  ∀ (i : Instr) (s : State) (kind : FaultKind), faultOf i s = some kind →
    exec i s = .next { s with run := .faulted kind }

/-- The table of R170 is complete: in every other case every instruction goes on to a next state and raises no error,
and none stops the model. -/
def Obligations.EveryInstructionGoesOn : Prop :=
  ∀ (i : Instr) (s : State), faultOf i s = none →
    ∃ t, exec i s = .next t ∧ ∀ kind, t.run = .faulted kind → s.run = .faulted kind

/-- Which registers an instruction can change (10_state.md R20): its destination, for `LD Vx, [I]` the block up to it,
and `VF` for the six flag writers. -/
def Obligations.OnlyNamedRegistersChange : Prop :=
  ∀ (i : Instr) (s t : State) (r : Reg), exec i s = .next t → t.readV r ≠ s.readV r →
    destination i = some r ∨ (∃ x, i = .ldVxMem x ∧ r.toNat ≤ x.toNat) ∨ (writesFlag i = true ∧ r = 15)

/-- `VF` as the flag (10_state.md R21): the six flag writers leave 0 or 1 in it whatever their `x` field is, when they
raise no error (that the flag is written last is decision D11, log entry 13); no other instruction writes it unless
its `x` field is 0xF. -/
def Obligations.OnlyFlagWritersWriteVF : Prop :=
  ∀ (i : Instr) (s t : State), exec i s = .next t →
    (writesFlag i = true → faultOf i s = none → t.readV 15 = 0x00 ∨ t.readV 15 = 0x01) ∧
    (writesFlag i = false → destination i ≠ some 15 → t.readV 15 = s.readV 15)

/-- Who writes what (10_state.md R22 to R28, 20_memory.md R50): `I`, `PC`, the stack, the timers, the framebuffer and
memory are changed by the named instructions only, and the keys and the model's own fields by none (but the draws
counter, by `RND`). -/
def Obligations.OnlyNamedInstructionsWrite : Prop :=
  ∀ (i : Instr) (s t : State), exec i s = .next t →
    (writesIndex i = false → t.i = s.i) ∧
    (writesPc i = false → t.pc = s.pc) ∧
    ((i ≠ .ret ∧ ∀ nnn, i ≠ .call nnn) → t.stack = s.stack ∧ t.sp = s.sp) ∧
    ((∀ x, i ≠ .ldDtVx x) → t.dt = s.dt) ∧
    ((∀ x, i ≠ .ldStVx x) → t.st = s.st) ∧
    ((i ≠ .cls ∧ ∀ x y n, i ≠ .drwVxVyN x y n) → t.fb = s.fb) ∧
    ((∀ x, i ≠ .ldBVx x ∧ i ≠ .ldMemVx x) → t.mem = s.mem) ∧
    ((∀ x nn, i ≠ .rndVxNn x nn) → t.draws = s.draws) ∧
    t.k = s.k ∧ t.launched = s.launched ∧ t.loadReport = s.loadReport ∧ t.schedule = s.schedule

/-! ## Control flow (40_control_flow.md). `PC` already holds `a + 2` in `s` (R108). -/

/-- `JP nnn` and `JP V0, nnn` (R101, R107): the target goes to `PC`, unreduced; nothing else changes. -/
def Obligations.JumpLoadsTarget : Prop :=
  ∀ (nnn : Addr12) (s : State),
    (∃ t, exec (.jp nnn) s = .next t ∧ t.pc.toNat = nnn.toNat ∧ Unchanged [.pc] s t) ∧
    (∃ t, exec (.jpV0Nnn nnn) s = .next t ∧ t.pc.toNat = nnn.toNat + (s.readV 0).toNat ∧
      Unchanged [.pc] s t)

/-- `CALL nnn` with room on the stack (R102): the advanced `PC` is pushed, `PC` is the target, nothing else changes. -/
def Obligations.CallPushesReturnAddress : Prop :=
  ∀ (nnn : Addr12) (s : State) (h : s.sp.val < 12),
    ∃ t, exec (.call nnn) s = .next t ∧ t.stack[s.sp.val] = s.pc ∧ t.sp.val = s.sp.val + 1 ∧
      (∀ (j : Nat) (hj : j < 12), j ≠ s.sp.val → t.stack[j] = s.stack[j]) ∧
      t.pc.toNat = nnn.toNat ∧ Unchanged [.stack, .pc] s t

/-- R172: `CALL` raises StackOverflow exactly with 12 entries on the stack, and then the stack, `SP` and `PC` are as
they were (`PC = a + 2`, the jump is not made). -/
def Obligations.ThirteenthCallOverflows : Prop :=
  ∀ (nnn : Addr12) (s : State),
    (s.sp.val = 12 → ∃ t, exec (.call nnn) s = .next t ∧ t.run = .faulted .stackOverflow ∧
      t.stack = s.stack ∧ t.sp = s.sp ∧ t.pc = s.pc ∧ Unchanged [.run] s t) ∧
    (s.sp.val < 12 → ∃ t, exec (.call nnn) s = .next t ∧ t.run = s.run ∧ t.sp.val = s.sp.val + 1)

/-- `RET` with an entry on the stack (R100): `PC` is the popped value, `SP` is one less, nothing else changes. -/
def Obligations.ReturnPopsAddress : Prop :=
  ∀ (s : State) (n : Nat) (hn : n < 12), s.sp.val = n + 1 →
    ∃ t, exec .ret s = .next t ∧ t.pc = s.stack[n] ∧ t.sp.val = n ∧ t.stack = s.stack ∧
      Unchanged [.stack, .pc] s t

/-- R173: `RET` raises StackUnderflow when `SP = 0`, and then the stack, `SP` and `PC` are as they were
(`PC = a + 2`). -/
def Obligations.ReturnOnEmptyUnderflows : Prop :=
  ∀ s : State, s.sp.val = 0 →
    ∃ t, exec .ret s = .next t ∧ t.run = .faulted .stackUnderflow ∧ t.stack = s.stack ∧ t.sp = s.sp ∧
      t.pc = s.pc ∧ Unchanged [.run] s t

/-- `SE Vx, nn` and `SNE Vx, nn` (R103, R104): `PC` advances by a further 2 when the condition holds; nothing else
changes. -/
def Obligations.SkipOnImmediate : Prop :=
  ∀ (x : Reg) (nn : Byte) (s : State),
    (∃ t, exec (.seVxNn x nn) s = .next t ∧
      t.pc.toNat = (if s.readV x = nn then (s.pc.toNat + 2) % 65536 else s.pc.toNat) ∧ Unchanged [.pc] s t) ∧
    (∃ t, exec (.sneVxNn x nn) s = .next t ∧
      t.pc.toNat = (if s.readV x ≠ nn then (s.pc.toNat + 2) % 65536 else s.pc.toNat) ∧ Unchanged [.pc] s t)

/-- `SE Vx, Vy` and `SNE Vx, Vy` (R105, R106). -/
def Obligations.SkipOnRegister : Prop :=
  ∀ (x y : Reg) (s : State),
    (∃ t, exec (.seVxVy x y) s = .next t ∧
      t.pc.toNat = (if s.readV x = s.readV y then (s.pc.toNat + 2) % 65536 else s.pc.toNat) ∧
      Unchanged [.pc] s t) ∧
    (∃ t, exec (.sneVxVy x y) s = .next t ∧
      t.pc.toNat = (if s.readV x ≠ s.readV y then (s.pc.toNat + 2) % 65536 else s.pc.toNat) ∧
      Unchanged [.pc] s t)

/-! ## Load, arithmetic, logic, shift, random (41_load_arith_logic.md) -/

/-- `LD Vx, nn` and `LD Vx, Vy` (R110, R112): only `V[x]` changes. -/
def Obligations.LoadImmediateAndCopy : Prop :=
  ∀ (x y : Reg) (nn : Byte) (s : State),
    (∃ t, exec (.ldVxNn x nn) s = .next t ∧ t.readV x = nn ∧ RegsUnchanged [x] s t ∧ Unchanged [.v] s t) ∧
    (∃ t, exec (.ldVxVy x y) s = .next t ∧ t.readV x = s.readV y ∧ RegsUnchanged [x] s t ∧
      Unchanged [.v] s t)

/-- `ADD Vx, nn` (R111): the sum modulo 256 to `V[x]`, no other register, `VF` among them unless it is `V[x]`. -/
def Obligations.AddImmediateSetsNoFlag : Prop :=
  ∀ (x : Reg) (nn : Byte) (s : State),
    ∃ t, exec (.addVxNn x nn) s = .next t ∧
      (t.readV x).toNat = ((s.readV x).toNat + nn.toNat) % 256 ∧ RegsUnchanged [x] s t ∧ Unchanged [.v] s t

/-- `OR`, `AND`, `XOR` (R113, R114, R115), bit by bit; no flag: only `V[x]` changes. -/
def Obligations.LogicIsBitwise : Prop :=
  ∀ (x y : Reg) (s : State),
    (∃ t, exec (.orVxVy x y) s = .next t ∧ RegsUnchanged [x] s t ∧ Unchanged [.v] s t ∧
      ∀ b < 8, (t.readV x).getLsbD b = ((s.readV x).getLsbD b || (s.readV y).getLsbD b)) ∧
    (∃ t, exec (.andVxVy x y) s = .next t ∧ RegsUnchanged [x] s t ∧ Unchanged [.v] s t ∧
      ∀ b < 8, (t.readV x).getLsbD b = ((s.readV x).getLsbD b && (s.readV y).getLsbD b)) ∧
    (∃ t, exec (.xorVxVy x y) s = .next t ∧ RegsUnchanged [x] s t ∧ Unchanged [.v] s t ∧
      ∀ b < 8, (t.readV x).getLsbD b = ((s.readV x).getLsbD b ^^ (s.readV y).getLsbD b))

/-- `ADD Vx, Vy` (R116): the sum modulo 256 to `V[x]` unless `x = 0xF`, the carry to `VF` in every case (that the flag
remains when `x = 0xF` is decision D11, log entry 13); nothing else changes. -/
def Obligations.AddRegistersSetsCarry : Prop :=
  ∀ (x y : Reg) (s : State),
    ∃ t, exec (.addVxVy x y) s = .next t ∧
      t.readV 15 = (if (s.readV x).toNat + (s.readV y).toNat > 255 then 0x01 else 0x00) ∧
      (x ≠ 15 → (t.readV x).toNat = ((s.readV x).toNat + (s.readV y).toNat) % 256) ∧
      RegsUnchanged [x, 15] s t ∧ Unchanged [.v] s t

/-- `SUB` and `SUBN` (R117, R119): the difference modulo 256 to `V[x]` unless `x = 0xF`, `VF` = 1 when no borrow occurs
and 0 otherwise (`x = 0xF`: decision D11, log entry 13); nothing else changes. -/
def Obligations.SubtractsSetNoBorrow : Prop :=
  ∀ (x y : Reg) (s : State),
    (∃ t, exec (.subVxVy x y) s = .next t ∧
      t.readV 15 = (if (s.readV x).toNat ≥ (s.readV y).toNat then 0x01 else 0x00) ∧
      (x ≠ 15 → (t.readV x).toNat = ((s.readV x).toNat + 256 - (s.readV y).toNat) % 256) ∧
      RegsUnchanged [x, 15] s t ∧ Unchanged [.v] s t) ∧
    (∃ t, exec (.subnVxVy x y) s = .next t ∧
      t.readV 15 = (if (s.readV y).toNat ≥ (s.readV x).toNat then 0x01 else 0x00) ∧
      (x ≠ 15 → (t.readV x).toNat = ((s.readV y).toNat + 256 - (s.readV x).toNat) % 256) ∧
      RegsUnchanged [x, 15] s t ∧ Unchanged [.v] s t)

/-- `SHR` and `SHL` (R118, R120): `V[x]` moves by one position unless `x = 0xF`, `VF` is the bit shifted out (`x = 0xF`:
decision D11, log entry 13); nothing else changes. -/
def Obligations.ShiftsSetBitOut : Prop :=
  ∀ (x : Reg) (s : State),
    (∃ t, exec (.shrVx x) s = .next t ∧ (t.readV 15).toNat = (s.readV x).toNat % 2 ∧
      (x ≠ 15 → (t.readV x).toNat = (s.readV x).toNat / 2) ∧
      RegsUnchanged [x, 15] s t ∧ Unchanged [.v] s t) ∧
    (∃ t, exec (.shlVx x) s = .next t ∧ (t.readV 15).toNat = (s.readV x).toNat / 128 ∧
      (x ≠ 15 → (t.readV x).toNat = (s.readV x).toNat * 2 % 256) ∧
      RegsUnchanged [x, 15] s t ∧ Unchanged [.v] s t)

/-- `RND Vx, nn` (R121): the drawn byte masked by `nn`, whatever byte is drawn (the free value of log entry 2); one byte
is drawn; nothing else changes. -/
def Obligations.RandomIsMaskedDraw : Prop :=
  ∀ (x : Reg) (nn : Byte) (s : State),
    ∃ t, exec (.rndVxNn x nn) s = .next t ∧ t.readV x = Config.rnd8 s.draws &&& nn ∧
      (nn = 0x00 → t.readV x = 0x00) ∧ (nn = 0xFF → t.readV x = Config.rnd8 s.draws) ∧
      t.draws = s.draws + 1 ∧ RegsUnchanged [x] s t ∧ Unchanged [.v, .draws] s t

/-! ## Index and memory (42_index_memory.md) -/

/-- R130, whole: `ANNN` decodes to `LD I, nnn` with `nnn` its low 12 bits; `I` is `nnn`, at most 0x0FFF; nothing else
changes, no error is raised; and the rule's example `A050`. -/
def Obligations.SetIndex : Prop :=
  (∀ w : Word, w &&& 0xF000#16 = 0xA000#16 →
    ∃ nnn : Addr12, decodeWord w = some (.ldINnn nnn) ∧ nnn.toNat = w.toNat % 4096) ∧
  (∀ (nnn : Addr12) (s : State),
    ∃ t, exec (.ldINnn nnn) s = .next t ∧ t.i.toNat = nnn.toNat ∧ t.i.toNat ≤ 0x0FFF ∧
      Unchanged [.i] s t) ∧
  (∃ nnn, decodeWord 0xA050 = some (.ldINnn nnn) ∧
    ∀ s : State, ∃ t, exec (.ldINnn nnn) s = .next t ∧ t.i = 0x0050)

/-- `ADD I, Vx` and `LD F, Vx` (R131, R132): the sum modulo 2^16, no flag; `FONT_BASE + 5 * V[x]` on all 8 bits, at most
0x054B. Only `I` changes (decisions D3, D7 and D32, log entry 13). -/
def Obligations.IndexArithmetic : Prop :=
  ∀ (x : Reg) (s : State),
    (∃ t, exec (.addIVx x) s = .next t ∧ t.i.toNat = (s.i.toNat + (s.readV x).toNat) % 65536 ∧
      Unchanged [.i] s t) ∧
    (∃ t, exec (.ldFVx x) s = .next t ∧ t.i.toNat = 0x050 + 5 * (s.readV x).toNat ∧ t.i.toNat ≤ 0x054B ∧
      Unchanged [.i] s t)

/-- `LD B, Vx` in bounds (R133): hundreds at `I`, tens at `I + 1`, ones at `I + 2` (the order is decision D20, log entry
13); every other byte and everything else is unchanged. -/
def Obligations.StoreDecimalDigits : Prop :=
  ∀ (x : Reg) (s : State), s.mem.wf = true → s.i.toNat + 2 < 4096 →
    ∃ t, exec (.ldBVx x) s = .next t ∧
      (t.mem.read (s.indexAddr 0)).toNat = (s.readV x).toNat / 100 ∧
      (t.mem.read (s.indexAddr 1)).toNat = (s.readV x).toNat / 10 % 10 ∧
      (t.mem.read (s.indexAddr 2)).toNat = (s.readV x).toNat % 10 ∧
      MemUnchangedOutside (s.indexAddr 0) 3 s t ∧ Unchanged [.mem] s t

/-- `LD [I], Vx` in bounds (R134): `V[k]` at `I + k` for `k = 0 .. x`; every other byte and everything else is
unchanged. -/
def Obligations.StoreRegisterBlock : Prop :=
  ∀ (x : Reg) (s : State), s.mem.wf = true → s.i.toNat + x.toNat < 4096 →
    ∃ t, exec (.ldMemVx x) s = .next t ∧
      (∀ r : Reg, r.toNat ≤ x.toNat → t.mem.read (s.indexAddr r.toNat) = s.readV r) ∧
      MemUnchangedOutside (s.indexAddr 0) (x.toNat + 1) s t ∧ Unchanged [.mem] s t

/-- `LD Vx, [I]` in bounds (R135): `V[k]` from `I + k` for `k = 0 .. x`; the registers above `x` and everything else
are unchanged. -/
def Obligations.LoadRegisterBlock : Prop :=
  ∀ (x : Reg) (s : State), s.i.toNat + x.toNat < 4096 →
    ∃ t, exec (.ldVxMem x) s = .next t ∧
      (∀ r : Reg, r.toNat ≤ x.toNat → t.readV r = s.mem.read (s.indexAddr r.toNat)) ∧
      (∀ r : Reg, r.toNat > x.toNat → t.readV r = s.readV r) ∧ Unchanged [.v] s t

/-- A block stored and loaded back is unchanged: `LD [I], Vx`, then `LD Vx, [I]` in any later state with that memory
and that `I`, gives `V[0] .. V[x]` their old values (R134, R135). -/
def Obligations.StoreThenLoadBlock : Prop :=
  ∀ (x : Reg) (s u : State), s.mem.wf = true → s.i.toNat + x.toNat < 4096 →
    ∃ t, exec (.ldMemVx x) s = .next t ∧
      (u.mem = t.mem → u.i = t.i →
        ∃ r, exec (.ldVxMem x) u = .next r ∧ ∀ q : Reg, q.toNat ≤ x.toNat → r.readV q = s.readV q)

/-! ## Display (43_display.md) -/

/-- `CLS` (R140): every pixel is unset; nothing else changes. -/
def Obligations.ClearScreen : Prop :=
  ∀ s : State, ∃ t, exec .cls s = .next t ∧
    (∀ px py, px < 64 → py < 32 → t.fb.pixel px py = false) ∧ Unchanged [.fb] s t

/-- `DRW Vx, Vy, n` in bounds (R141, R142): a pixel of the grid is toggled exactly when a set sprite bit covers it, with
columns wrapping and rows clipping; `VF` is 1 exactly when a set pixel is covered, 0 otherwise; nothing else changes
(the bit order is decision D13, the flag written last D11, log entry 13). -/
def Obligations.DrawTogglesCoveredPixels : Prop :=
  ∀ (x y : Reg) (n : Nibble) (s : State), (n.toNat = 0 ∨ s.i.toNat + n.toNat - 1 < 4096) →
    ∃ t, exec (.drwVxVyN x y n) s = .next t ∧
      (∀ px py, px < 64 → py < 32 →
        (s.SpriteCovers x y n px py → t.fb.pixel px py = !s.fb.pixel px py) ∧
        (¬ s.SpriteCovers x y n px py → t.fb.pixel px py = s.fb.pixel px py)) ∧
      (s.Collides x y n → t.readV 15 = 0x01) ∧ (¬ s.Collides x y n → t.readV 15 = 0x00) ∧
      RegsUnchanged [15] s t ∧ Unchanged [.v, .fb] s t

/-- Drawing the same sprite twice at the same place restores the framebuffer, and the second draw sets `VF` exactly when
the first set a pixel (R141, the source's "XOR self-cancellation"), for `x` and `y` other than 0xF, whose register
the first draw overwrites. -/
def Obligations.DrawTwiceRestores : Prop :=
  ∀ (x y : Reg) (n : Nibble) (s : State), x ≠ 15 → y ≠ 15 →
    (n.toNat = 0 ∨ s.i.toNat + n.toNat - 1 < 4096) →
    ∃ t u, exec (.drwVxVyN x y n) s = .next t ∧ exec (.drwVxVyN x y n) t = .next u ∧ u.fb = s.fb ∧
      (u.readV 15 = 0x01 ↔ ∃ px, px < 64 ∧ ∃ py, py < 32 ∧ s.fb.pixel px py = false ∧
        t.fb.pixel px py = true)

/-! ## Timers and keys (44_timers_keys.md) -/

/-- `SKP Vx` and `SKNP Vx` (R150, R151, R156): the level of the key named by `V[x]` is tested; a code above 15 names no
key and reads as not pressed (decision D14, log entry 13); exactly one of the two skips; nothing but `PC` changes. -/
def Obligations.SkipOnKey : Prop :=
  ∀ (x : Reg) (s : State),
    (∃ t, exec (.skpVx x) s = .next t ∧ Unchanged [.pc] s t ∧
      t.pc.toNat = (if s.k.toList[(s.readV x).toNat]? = some true then (s.pc.toNat + 2) % 65536
        else s.pc.toNat)) ∧
    (∃ t, exec (.sknpVx x) s = .next t ∧ Unchanged [.pc] s t ∧
      t.pc.toNat = (if s.k.toList[(s.readV x).toNat]? = some true then s.pc.toNat
        else (s.pc.toNat + 2) % 65536))

/-- `LD Vx, DT`, `LD DT, Vx`, `LD ST, Vx` (R152, R154, R155): the value moves as it is, whatever it is; nothing else
changes. -/
def Obligations.TimerMoves : Prop :=
  ∀ (x : Reg) (s : State),
    (∃ t, exec (.ldVxDt x) s = .next t ∧ t.readV x = s.dt ∧ RegsUnchanged [x] s t ∧ Unchanged [.v] s t) ∧
    (∃ t, exec (.ldDtVx x) s = .next t ∧ t.dt = s.readV x ∧ Unchanged [.dt] s t) ∧
    (∃ t, exec (.ldStVx x) s = .next t ∧ t.st = s.readV x ∧ Unchanged [.st] s t)

/-- `LD Vx, K` (R153): `RUN` becomes `AwaitKey(x)` and nothing else changes; the register is written by the later event
(`SetKeyAndResume`). -/
def Obligations.WaitForKeySuspends : Prop :=
  ∀ (x : Reg) (s : State), ∃ t, exec (.ldVxK x) s = .next t ∧ t.run = .awaitKey x ∧ Unchanged [.run] s t
end

