-- ==== Sys2Proof/Laws/Decode.lean ====
section
/-! SUPPORT. The fields of an assembled word and the masks of the opcode table on it, bit by bit
(30_encoding.md R71, R72). -/

namespace Sys2Proof

/-! ## The bits of an assembled word -/

theorem getLsbD_formNnn (op : Nibble) (nnn : Addr12) (i : Nat) :
    (formNnn op nnn).getLsbD i = if i < 12 then nnn.getLsbD i else op.getLsbD (i - 12) :=
  (BitVec.getLsbD_append (x := op) (y := nnn))

theorem getLsbD_formXnn (op : Nibble) (x : Reg) (nn : Byte) (i : Nat) :
    (formXnn op x nn).getLsbD i =
      if i < 8 then nn.getLsbD i else if i - 8 < 4 then x.getLsbD (i - 8) else op.getLsbD (i - 8 - 4) :=
  (BitVec.getLsbD_append (x := op ++ x) (y := nn)).trans (by rw [BitVec.getLsbD_append])

theorem getLsbD_formXyn (op : Nibble) (x y : Reg) (n : Nibble) (i : Nat) :
    (formXyn op x y n).getLsbD i =
      if i < 4 then n.getLsbD i else if i - 4 < 4 then y.getLsbD (i - 4)
      else if i - 4 - 4 < 4 then x.getLsbD (i - 4 - 4) else op.getLsbD (i - 4 - 4 - 4) :=
  (BitVec.getLsbD_append (x := op ++ x ++ y) (y := n)).trans (by
    rw [BitVec.getLsbD_append, BitVec.getLsbD_append])

theorem getLsbD_wordOfBytes (hi lo : Byte) (i : Nat) :
    (wordOfBytes hi lo).getLsbD i = if i < 8 then lo.getLsbD i else hi.getLsbD (i - 8) :=
  (BitVec.getLsbD_append (x := hi) (y := lo))

/-! ## The fields of an assembled word -/

@[simp] theorem fieldOp_formNnn (op : Nibble) (nnn : Addr12) : fieldOp (formNnn op nnn) = op := by
  apply BitVec.eq_of_getLsbD_eq
  intro i hi
  interval_cases i <;> simp only [fieldOp, BitVec.getLsbD_extractLsb', getLsbD_formNnn] <;> simp

@[simp] theorem fieldNnn_formNnn (op : Nibble) (nnn : Addr12) : fieldNnn (formNnn op nnn) = nnn := by
  apply BitVec.eq_of_getLsbD_eq
  intro i hi
  interval_cases i <;> simp only [fieldNnn, BitVec.getLsbD_extractLsb', getLsbD_formNnn] <;> simp

@[simp] theorem fieldOp_formXnn (op : Nibble) (x : Reg) (nn : Byte) : fieldOp (formXnn op x nn) = op := by
  apply BitVec.eq_of_getLsbD_eq
  intro i hi
  interval_cases i <;> simp only [fieldOp, BitVec.getLsbD_extractLsb', getLsbD_formXnn] <;> simp

@[simp] theorem fieldX_formXnn (op : Nibble) (x : Reg) (nn : Byte) : fieldX (formXnn op x nn) = x := by
  apply BitVec.eq_of_getLsbD_eq
  intro i hi
  interval_cases i <;> simp only [fieldX, BitVec.getLsbD_extractLsb', getLsbD_formXnn] <;> simp

@[simp] theorem fieldNn_formXnn (op : Nibble) (x : Reg) (nn : Byte) : fieldNn (formXnn op x nn) = nn := by
  apply BitVec.eq_of_getLsbD_eq
  intro i hi
  interval_cases i <;> simp only [fieldNn, BitVec.getLsbD_extractLsb', getLsbD_formXnn] <;> simp

@[simp] theorem fieldOp_formXyn (op : Nibble) (x y : Reg) (n : Nibble) : fieldOp (formXyn op x y n) = op := by
  apply BitVec.eq_of_getLsbD_eq
  intro i hi
  interval_cases i <;> simp only [fieldOp, BitVec.getLsbD_extractLsb', getLsbD_formXyn] <;> simp

@[simp] theorem fieldX_formXyn (op : Nibble) (x y : Reg) (n : Nibble) : fieldX (formXyn op x y n) = x := by
  apply BitVec.eq_of_getLsbD_eq
  intro i hi
  interval_cases i <;> simp only [fieldX, BitVec.getLsbD_extractLsb', getLsbD_formXyn] <;> simp

@[simp] theorem fieldY_formXyn (op : Nibble) (x y : Reg) (n : Nibble) : fieldY (formXyn op x y n) = y := by
  apply BitVec.eq_of_getLsbD_eq
  intro i hi
  interval_cases i <;> simp only [fieldY, BitVec.getLsbD_extractLsb', getLsbD_formXyn] <;> simp

@[simp] theorem fieldN_formXyn (op : Nibble) (x y : Reg) (n : Nibble) : fieldN (formXyn op x y n) = n := by
  apply BitVec.eq_of_getLsbD_eq
  intro i hi
  interval_cases i <;> simp only [fieldN, BitVec.getLsbD_extractLsb', getLsbD_formXyn] <;> simp

/-! ## The masks of the opcode table keep the fixed bits and clear the fields -/

@[simp] theorem formNnn_and_op (op : Nibble) (nnn : Addr12) : formNnn op nnn &&& 0xF000#16 = formNnn op 0#12 := by
  apply BitVec.eq_of_getLsbD_eq
  intro i hi
  interval_cases i <;> simp only [BitVec.getLsbD_and, getLsbD_formNnn] <;> simp

@[simp] theorem formXnn_and_op (op : Nibble) (x : Reg) (nn : Byte) : formXnn op x nn &&& 0xF000#16 = formXnn op 0#4 0#8 := by
  apply BitVec.eq_of_getLsbD_eq
  intro i hi
  interval_cases i <;> simp only [BitVec.getLsbD_and, getLsbD_formXnn] <;> simp

@[simp] theorem formXnn_and_op_nn (op : Nibble) (x : Reg) (nn : Byte) : formXnn op x nn &&& 0xF0FF#16 = formXnn op 0#4 nn := by
  apply BitVec.eq_of_getLsbD_eq
  intro i hi
  interval_cases i <;> simp only [BitVec.getLsbD_and, getLsbD_formXnn] <;> simp

@[simp] theorem formXyn_and_op (op : Nibble) (x y : Reg) (n : Nibble) : formXyn op x y n &&& 0xF000#16 = formXyn op 0#4 0#4 0#4 := by
  apply BitVec.eq_of_getLsbD_eq
  intro i hi
  interval_cases i <;> simp only [BitVec.getLsbD_and, getLsbD_formXyn] <;> simp

@[simp] theorem formXyn_and_op_n (op : Nibble) (x y : Reg) (n : Nibble) : formXyn op x y n &&& 0xF00F#16 = formXyn op 0#4 0#4 n := by
  apply BitVec.eq_of_getLsbD_eq
  intro i hi
  interval_cases i <;> simp only [BitVec.getLsbD_and, getLsbD_formXyn] <;> simp

/-- The two bytes of a word make the word again (20_memory.md R52). -/
theorem wordOfBytes_bytesOfWord (w : Word) : wordOfBytes (w.extractLsb' 8 8) (w.extractLsb' 0 8) = w := by
  apply BitVec.eq_of_getLsbD_eq
  intro i hi
  interval_cases i <;> simp only [getLsbD_wordOfBytes] <;> simp

/-- The word of two bytes is the high byte times 256 plus the low byte (00_scope.md R7). -/
theorem toNat_wordOfBytes (hi lo : Byte) : (wordOfBytes hi lo).toNat = hi.toNat * 256 + lo.toNat := by
  have h := lo.isLt
  show (hi ++ lo).toNat = _
  rw [BitVec.toNat_append, Nat.shiftLeft_eq, Nat.mul_comm, ← Nat.two_pow_add_eq_or_of_lt h]

end Sys2Proof
end

