-- ==== Sys2Proof/Laws/Memory.lean ====
section
/-! SUPPORT. The laws of memory: a write is read back, leaves every other address alone and keeps the canonical
form, and the same of a block. -/

namespace Sys2Proof.Machine

theorem Memory.wfFrom_mono {lo lo' : Nat} {m : Memory} (h : m.wfFrom lo = true) (hl : lo' ≤ lo) :
    m.wfFrom lo' = true := by
  cases m with
  | nil => rfl
  | cons c m =>
    simp only [Memory.wfFrom, Bool.and_eq_true, decide_eq_true_eq] at h ⊢
    exact ⟨⟨⟨by omega, h.1.1.2⟩, h.1.2⟩, h.2⟩

/-- Below its first cell a memory reads as the reset contents. -/
theorem Memory.read_below {lo : Nat} {m : Memory} (h : m.wfFrom lo = true) {a : Nat} (ha : a < lo) :
    m.read a = Memory.background a := by
  induction m generalizing lo with
  | nil => rfl
  | cons c m ih =>
    simp only [Memory.wfFrom, Bool.and_eq_true, decide_eq_true_eq] at h
    rw [Memory.read, if_neg (by omega)]
    exact ih h.2 (by omega)

/-- A write leaves every other address alone, in any memory. -/
theorem Memory.read_write_other (m : Memory) (a : Nat) (w : Byte) {c : Nat} (hc : c ≠ a) :
    (m.write a w).read c = m.read c := by
  induction m with
  | nil => unfold Memory.write; split <;> simp [Memory.read, hc]
  | cons e m ih =>
    unfold Memory.write
    split
    · split <;> simp [Memory.read, hc]
    · split
      · rename_i h; subst h
        split <;> simp [Memory.read, hc]
      · simp [Memory.read, ih]

theorem Memory.read_write_same_from {lo : Nat} {m : Memory} (h : m.wfFrom lo = true) (a : Nat) (w : Byte) :
    (m.write a w).read a = w := by
  induction m generalizing lo with
  | nil => unfold Memory.write; split <;> simp_all [Memory.read]
  | cons e m ih =>
    have h' := h
    simp only [Memory.wfFrom, Bool.and_eq_true, decide_eq_true_eq] at h
    unfold Memory.write
    split
    · rename_i hlt
      split
      · rename_i hb
        rw [hb, Memory.read, if_neg (by omega)]
        exact Memory.read_below h.2 (by omega)
      · simp [Memory.read]
    · split
      · rename_i he; subst he
        split
        · rename_i hb
          rw [hb]
          exact Memory.read_below h.2 (by omega)
        · simp [Memory.read]
      · rename_i h1 h2
        rw [Memory.read, if_neg h2]
        exact ih h.2

/-- In canonical form, a byte written is read back (00_scope.md R8). -/
theorem Memory.read_write_same {m : Memory} (h : m.wf = true) (a : Nat) (w : Byte) :
    (m.write a w).read a = w := Memory.read_write_same_from h a w

theorem Memory.write_wfFrom {lo : Nat} {m : Memory} (h : m.wfFrom lo = true) {a : Nat} (w : Byte)
    (hlo : lo ≤ a) (ha : a < Config.memSize) : (m.write a w).wfFrom lo = true := by
  induction m generalizing lo with
  | nil => unfold Memory.write; split <;> simp_all [Memory.wfFrom]
  | cons e m ih =>
    have h' := h
    simp only [Memory.wfFrom, Bool.and_eq_true, decide_eq_true_eq] at h
    unfold Memory.write
    split
    · rename_i hlt
      split
      · exact h'
      · rename_i hb
        simp only [Memory.wfFrom, Bool.and_eq_true, decide_eq_true_eq]
        exact ⟨⟨⟨hlo, ha⟩, by simpa using hb⟩, ⟨⟨by omega, h.1.1.2⟩, h.1.2⟩, h.2⟩
    · split
      · rename_i he; subst he
        split
        · exact Memory.wfFrom_mono h.2 (by omega)
        · rename_i hb
          simp only [Memory.wfFrom, Bool.and_eq_true, decide_eq_true_eq]
          exact ⟨⟨⟨hlo, ha⟩, by simpa using hb⟩, h.2⟩
      · rename_i h1 h2
        simp only [Memory.wfFrom, Bool.and_eq_true, decide_eq_true_eq]
        exact ⟨h.1, ih h.2 (by omega)⟩

/-- A write to an address that exists keeps the canonical form. -/
theorem Memory.write_wf {m : Memory} (h : m.wf = true) {a : Nat} (w : Byte) (ha : a < Config.memSize) :
    (m.write a w).wf = true := Memory.write_wfFrom h w (Nat.zero_le a) ha

/-- A block write inside the memory keeps the canonical form. -/
theorem Memory.writeBlock_wf {m : Memory} (h : m.wf = true) (base : Nat) (bs : List Byte)
    (hb : base + bs.length ≤ Config.memSize) : (m.writeBlock base bs).wf = true := by
  induction bs generalizing m base with
  | nil => exact h
  | cons b bs ih =>
    simp only [List.length_cons] at hb
    exact ih (Memory.write_wf h b (by omega)) _ (by omega)

/-- A block write leaves every address outside the block alone. -/
theorem Memory.read_writeBlock_outside (m : Memory) (base : Nat) (bs : List Byte) {a : Nat}
    (ha : ¬ (base ≤ a ∧ a < base + bs.length)) : (m.writeBlock base bs).read a = m.read a := by
  induction bs generalizing m base with
  | nil => rfl
  | cons b bs ih =>
    simp only [List.length_cons] at ha
    rw [Memory.writeBlock, ih _ _ (by omega), Memory.read_write_other _ _ _ (by omega)]

/-- A block written is read back, byte by byte. -/
theorem Memory.read_writeBlock_inside {m : Memory} (h : m.wf = true) (base : Nat) (bs : List Byte)
    (hb : base + bs.length ≤ Config.memSize) (j : Nat) (hj : j < bs.length) :
    (m.writeBlock base bs).read (base + j) = bs[j] := by
  induction bs generalizing m base j with
  | nil => simp at hj
  | cons b bs ih =>
    simp only [List.length_cons] at hb hj
    rw [Memory.writeBlock]
    cases j with
    | zero =>
      rw [Memory.read_writeBlock_outside _ _ _ (by omega)]
      simpa using Memory.read_write_same h base b
    | succ j =>
      have hw := Memory.write_wf h b (a := base) (by omega)
      have := ih hw (base + 1) (by omega) j (by omega)
      simpa [Nat.add_assoc, Nat.add_comm 1 j] using this

/-- The reset contents: nothing listed, in canonical form. -/
theorem Memory.reset_wf : State.reset.mem.wf = true := rfl

end Sys2Proof.Machine
end

