-- ==== Sys2Proof/Laws/State.lean ====
section
/-! SUPPORT. One lemma per field per named update of the state, so that no proof unfolds a record update, and the
reads of a register after a write. -/

namespace Sys2Proof.Machine

@[simp] theorem State.writeV_i (s : State) (x : Reg) (b : Byte) : (s.writeV x b).i = s.i := rfl
@[simp] theorem State.writeV_pc (s : State) (x : Reg) (b : Byte) : (s.writeV x b).pc = s.pc := rfl
@[simp] theorem State.writeV_stack (s : State) (x : Reg) (b : Byte) : (s.writeV x b).stack = s.stack := rfl
@[simp] theorem State.writeV_sp (s : State) (x : Reg) (b : Byte) : (s.writeV x b).sp = s.sp := rfl
@[simp] theorem State.writeV_dt (s : State) (x : Reg) (b : Byte) : (s.writeV x b).dt = s.dt := rfl
@[simp] theorem State.writeV_st (s : State) (x : Reg) (b : Byte) : (s.writeV x b).st = s.st := rfl
@[simp] theorem State.writeV_fb (s : State) (x : Reg) (b : Byte) : (s.writeV x b).fb = s.fb := rfl
@[simp] theorem State.writeV_k (s : State) (x : Reg) (b : Byte) : (s.writeV x b).k = s.k := rfl
@[simp] theorem State.writeV_mem (s : State) (x : Reg) (b : Byte) : (s.writeV x b).mem = s.mem := rfl
@[simp] theorem State.writeV_run (s : State) (x : Reg) (b : Byte) : (s.writeV x b).run = s.run := rfl
@[simp] theorem State.writeV_draws (s : State) (x : Reg) (b : Byte) : (s.writeV x b).draws = s.draws := rfl
@[simp] theorem State.writeV_launched (s : State) (x : Reg) (b : Byte) : (s.writeV x b).launched = s.launched := rfl
@[simp] theorem State.writeV_loadReport (s : State) (x : Reg) (b : Byte) : (s.writeV x b).loadReport = s.loadReport := rfl
@[simp] theorem State.writeV_schedule (s : State) (x : Reg) (b : Byte) : (s.writeV x b).schedule = s.schedule := rfl

@[simp] theorem State.advance_v (s : State) : (s.advance).v = s.v := rfl
@[simp] theorem State.advance_i (s : State) : (s.advance).i = s.i := rfl
@[simp] theorem State.advance_stack (s : State) : (s.advance).stack = s.stack := rfl
@[simp] theorem State.advance_sp (s : State) : (s.advance).sp = s.sp := rfl
@[simp] theorem State.advance_dt (s : State) : (s.advance).dt = s.dt := rfl
@[simp] theorem State.advance_st (s : State) : (s.advance).st = s.st := rfl
@[simp] theorem State.advance_fb (s : State) : (s.advance).fb = s.fb := rfl
@[simp] theorem State.advance_k (s : State) : (s.advance).k = s.k := rfl
@[simp] theorem State.advance_mem (s : State) : (s.advance).mem = s.mem := rfl
@[simp] theorem State.advance_run (s : State) : (s.advance).run = s.run := rfl
@[simp] theorem State.advance_draws (s : State) : (s.advance).draws = s.draws := rfl
@[simp] theorem State.advance_launched (s : State) : (s.advance).launched = s.launched := rfl
@[simp] theorem State.advance_loadReport (s : State) : (s.advance).loadReport = s.loadReport := rfl
@[simp] theorem State.advance_schedule (s : State) : (s.advance).schedule = s.schedule := rfl

@[simp] theorem State.skipIf_v (s : State) (c : Bool) : (s.skipIf c).v = s.v := by cases c <;> rfl
@[simp] theorem State.skipIf_i (s : State) (c : Bool) : (s.skipIf c).i = s.i := by cases c <;> rfl
@[simp] theorem State.skipIf_stack (s : State) (c : Bool) : (s.skipIf c).stack = s.stack := by cases c <;> rfl
@[simp] theorem State.skipIf_sp (s : State) (c : Bool) : (s.skipIf c).sp = s.sp := by cases c <;> rfl
@[simp] theorem State.skipIf_dt (s : State) (c : Bool) : (s.skipIf c).dt = s.dt := by cases c <;> rfl
@[simp] theorem State.skipIf_st (s : State) (c : Bool) : (s.skipIf c).st = s.st := by cases c <;> rfl
@[simp] theorem State.skipIf_fb (s : State) (c : Bool) : (s.skipIf c).fb = s.fb := by cases c <;> rfl
@[simp] theorem State.skipIf_k (s : State) (c : Bool) : (s.skipIf c).k = s.k := by cases c <;> rfl
@[simp] theorem State.skipIf_mem (s : State) (c : Bool) : (s.skipIf c).mem = s.mem := by cases c <;> rfl
@[simp] theorem State.skipIf_run (s : State) (c : Bool) : (s.skipIf c).run = s.run := by cases c <;> rfl
@[simp] theorem State.skipIf_draws (s : State) (c : Bool) : (s.skipIf c).draws = s.draws := by cases c <;> rfl
@[simp] theorem State.skipIf_launched (s : State) (c : Bool) : (s.skipIf c).launched = s.launched := by cases c <;> rfl
@[simp] theorem State.skipIf_loadReport (s : State) (c : Bool) : (s.skipIf c).loadReport = s.loadReport := by cases c <;> rfl
@[simp] theorem State.skipIf_schedule (s : State) (c : Bool) : (s.skipIf c).schedule = s.schedule := by cases c <;> rfl

@[simp] theorem State.storeBlock_v (s : State) (base : Nat) (bs : List Byte) : (s.storeBlock base bs).v = s.v := rfl
@[simp] theorem State.storeBlock_i (s : State) (base : Nat) (bs : List Byte) : (s.storeBlock base bs).i = s.i := rfl
@[simp] theorem State.storeBlock_pc (s : State) (base : Nat) (bs : List Byte) : (s.storeBlock base bs).pc = s.pc := rfl
@[simp] theorem State.storeBlock_stack (s : State) (base : Nat) (bs : List Byte) : (s.storeBlock base bs).stack = s.stack := rfl
@[simp] theorem State.storeBlock_sp (s : State) (base : Nat) (bs : List Byte) : (s.storeBlock base bs).sp = s.sp := rfl
@[simp] theorem State.storeBlock_dt (s : State) (base : Nat) (bs : List Byte) : (s.storeBlock base bs).dt = s.dt := rfl
@[simp] theorem State.storeBlock_st (s : State) (base : Nat) (bs : List Byte) : (s.storeBlock base bs).st = s.st := rfl
@[simp] theorem State.storeBlock_fb (s : State) (base : Nat) (bs : List Byte) : (s.storeBlock base bs).fb = s.fb := rfl
@[simp] theorem State.storeBlock_k (s : State) (base : Nat) (bs : List Byte) : (s.storeBlock base bs).k = s.k := rfl
@[simp] theorem State.storeBlock_run (s : State) (base : Nat) (bs : List Byte) : (s.storeBlock base bs).run = s.run := rfl
@[simp] theorem State.storeBlock_draws (s : State) (base : Nat) (bs : List Byte) : (s.storeBlock base bs).draws = s.draws := rfl
@[simp] theorem State.storeBlock_launched (s : State) (base : Nat) (bs : List Byte) : (s.storeBlock base bs).launched = s.launched := rfl
@[simp] theorem State.storeBlock_loadReport (s : State) (base : Nat) (bs : List Byte) : (s.storeBlock base bs).loadReport = s.loadReport := rfl
@[simp] theorem State.storeBlock_schedule (s : State) (base : Nat) (bs : List Byte) : (s.storeBlock base bs).schedule = s.schedule := rfl

@[simp] theorem takeFault_v (s : State) (kind : FaultKind) : (takeFault kind s).v = s.v := rfl
@[simp] theorem takeFault_i (s : State) (kind : FaultKind) : (takeFault kind s).i = s.i := rfl
@[simp] theorem takeFault_pc (s : State) (kind : FaultKind) : (takeFault kind s).pc = s.pc := rfl
@[simp] theorem takeFault_stack (s : State) (kind : FaultKind) : (takeFault kind s).stack = s.stack := rfl
@[simp] theorem takeFault_sp (s : State) (kind : FaultKind) : (takeFault kind s).sp = s.sp := rfl
@[simp] theorem takeFault_dt (s : State) (kind : FaultKind) : (takeFault kind s).dt = s.dt := rfl
@[simp] theorem takeFault_st (s : State) (kind : FaultKind) : (takeFault kind s).st = s.st := rfl
@[simp] theorem takeFault_fb (s : State) (kind : FaultKind) : (takeFault kind s).fb = s.fb := rfl
@[simp] theorem takeFault_k (s : State) (kind : FaultKind) : (takeFault kind s).k = s.k := rfl
@[simp] theorem takeFault_mem (s : State) (kind : FaultKind) : (takeFault kind s).mem = s.mem := rfl
@[simp] theorem takeFault_draws (s : State) (kind : FaultKind) : (takeFault kind s).draws = s.draws := rfl
@[simp] theorem takeFault_launched (s : State) (kind : FaultKind) : (takeFault kind s).launched = s.launched := rfl
@[simp] theorem takeFault_loadReport (s : State) (kind : FaultKind) : (takeFault kind s).loadReport = s.loadReport := rfl
@[simp] theorem takeFault_schedule (s : State) (kind : FaultKind) : (takeFault kind s).schedule = s.schedule := rfl

@[simp] theorem State.setKeyBit_v (s : State) (code : Nat) (b : Bool) : (s.setKeyBit code b).v = s.v := by unfold State.setKeyBit; split <;> rfl
@[simp] theorem State.setKeyBit_i (s : State) (code : Nat) (b : Bool) : (s.setKeyBit code b).i = s.i := by unfold State.setKeyBit; split <;> rfl
@[simp] theorem State.setKeyBit_pc (s : State) (code : Nat) (b : Bool) : (s.setKeyBit code b).pc = s.pc := by unfold State.setKeyBit; split <;> rfl
@[simp] theorem State.setKeyBit_stack (s : State) (code : Nat) (b : Bool) : (s.setKeyBit code b).stack = s.stack := by unfold State.setKeyBit; split <;> rfl
@[simp] theorem State.setKeyBit_sp (s : State) (code : Nat) (b : Bool) : (s.setKeyBit code b).sp = s.sp := by unfold State.setKeyBit; split <;> rfl
@[simp] theorem State.setKeyBit_dt (s : State) (code : Nat) (b : Bool) : (s.setKeyBit code b).dt = s.dt := by unfold State.setKeyBit; split <;> rfl
@[simp] theorem State.setKeyBit_st (s : State) (code : Nat) (b : Bool) : (s.setKeyBit code b).st = s.st := by unfold State.setKeyBit; split <;> rfl
@[simp] theorem State.setKeyBit_fb (s : State) (code : Nat) (b : Bool) : (s.setKeyBit code b).fb = s.fb := by unfold State.setKeyBit; split <;> rfl
@[simp] theorem State.setKeyBit_mem (s : State) (code : Nat) (b : Bool) : (s.setKeyBit code b).mem = s.mem := by unfold State.setKeyBit; split <;> rfl
@[simp] theorem State.setKeyBit_run (s : State) (code : Nat) (b : Bool) : (s.setKeyBit code b).run = s.run := by unfold State.setKeyBit; split <;> rfl
@[simp] theorem State.setKeyBit_draws (s : State) (code : Nat) (b : Bool) : (s.setKeyBit code b).draws = s.draws := by unfold State.setKeyBit; split <;> rfl
@[simp] theorem State.setKeyBit_launched (s : State) (code : Nat) (b : Bool) : (s.setKeyBit code b).launched = s.launched := by unfold State.setKeyBit; split <;> rfl
@[simp] theorem State.setKeyBit_loadReport (s : State) (code : Nat) (b : Bool) : (s.setKeyBit code b).loadReport = s.loadReport := by unfold State.setKeyBit; split <;> rfl
@[simp] theorem State.setKeyBit_schedule (s : State) (code : Nat) (b : Bool) : (s.setKeyBit code b).schedule = s.schedule := by unfold State.setKeyBit; split <;> rfl

@[simp] theorem State.tick_v (s : State) : (s.tick).v = s.v := rfl
@[simp] theorem State.tick_i (s : State) : (s.tick).i = s.i := rfl
@[simp] theorem State.tick_pc (s : State) : (s.tick).pc = s.pc := rfl
@[simp] theorem State.tick_stack (s : State) : (s.tick).stack = s.stack := rfl
@[simp] theorem State.tick_sp (s : State) : (s.tick).sp = s.sp := rfl
@[simp] theorem State.tick_fb (s : State) : (s.tick).fb = s.fb := rfl
@[simp] theorem State.tick_k (s : State) : (s.tick).k = s.k := rfl
@[simp] theorem State.tick_mem (s : State) : (s.tick).mem = s.mem := rfl
@[simp] theorem State.tick_run (s : State) : (s.tick).run = s.run := rfl
@[simp] theorem State.tick_draws (s : State) : (s.tick).draws = s.draws := rfl
@[simp] theorem State.tick_launched (s : State) : (s.tick).launched = s.launched := rfl
@[simp] theorem State.tick_loadReport (s : State) : (s.tick).loadReport = s.loadReport := rfl
@[simp] theorem State.tick_schedule (s : State) : (s.tick).schedule = s.schedule := rfl

@[simp] theorem State.afterFetch_v (s : State) : (s.afterFetch).v = s.v := rfl
@[simp] theorem State.afterFetch_i (s : State) : (s.afterFetch).i = s.i := rfl
@[simp] theorem State.afterFetch_stack (s : State) : (s.afterFetch).stack = s.stack := rfl
@[simp] theorem State.afterFetch_sp (s : State) : (s.afterFetch).sp = s.sp := rfl
@[simp] theorem State.afterFetch_dt (s : State) : (s.afterFetch).dt = s.dt := rfl
@[simp] theorem State.afterFetch_st (s : State) : (s.afterFetch).st = s.st := rfl
@[simp] theorem State.afterFetch_fb (s : State) : (s.afterFetch).fb = s.fb := rfl
@[simp] theorem State.afterFetch_k (s : State) : (s.afterFetch).k = s.k := rfl
@[simp] theorem State.afterFetch_mem (s : State) : (s.afterFetch).mem = s.mem := rfl
@[simp] theorem State.afterFetch_run (s : State) : (s.afterFetch).run = s.run := rfl
@[simp] theorem State.afterFetch_draws (s : State) : (s.afterFetch).draws = s.draws := rfl
@[simp] theorem State.afterFetch_loadReport (s : State) : (s.afterFetch).loadReport = s.loadReport := rfl
@[simp] theorem State.afterFetch_schedule (s : State) : (s.afterFetch).schedule = s.schedule := rfl

@[simp] theorem State.writeResultThenFlag_i (s : State) (x : Reg) (r : Byte) (f : Bool) : (s.writeResultThenFlag x r f).i = s.i := rfl
@[simp] theorem State.writeResultThenFlag_pc (s : State) (x : Reg) (r : Byte) (f : Bool) : (s.writeResultThenFlag x r f).pc = s.pc := rfl
@[simp] theorem State.writeResultThenFlag_stack (s : State) (x : Reg) (r : Byte) (f : Bool) : (s.writeResultThenFlag x r f).stack = s.stack := rfl
@[simp] theorem State.writeResultThenFlag_sp (s : State) (x : Reg) (r : Byte) (f : Bool) : (s.writeResultThenFlag x r f).sp = s.sp := rfl
@[simp] theorem State.writeResultThenFlag_dt (s : State) (x : Reg) (r : Byte) (f : Bool) : (s.writeResultThenFlag x r f).dt = s.dt := rfl
@[simp] theorem State.writeResultThenFlag_st (s : State) (x : Reg) (r : Byte) (f : Bool) : (s.writeResultThenFlag x r f).st = s.st := rfl
@[simp] theorem State.writeResultThenFlag_fb (s : State) (x : Reg) (r : Byte) (f : Bool) : (s.writeResultThenFlag x r f).fb = s.fb := rfl
@[simp] theorem State.writeResultThenFlag_k (s : State) (x : Reg) (r : Byte) (f : Bool) : (s.writeResultThenFlag x r f).k = s.k := rfl
@[simp] theorem State.writeResultThenFlag_mem (s : State) (x : Reg) (r : Byte) (f : Bool) : (s.writeResultThenFlag x r f).mem = s.mem := rfl
@[simp] theorem State.writeResultThenFlag_run (s : State) (x : Reg) (r : Byte) (f : Bool) : (s.writeResultThenFlag x r f).run = s.run := rfl
@[simp] theorem State.writeResultThenFlag_draws (s : State) (x : Reg) (r : Byte) (f : Bool) : (s.writeResultThenFlag x r f).draws = s.draws := rfl
@[simp] theorem State.writeResultThenFlag_launched (s : State) (x : Reg) (r : Byte) (f : Bool) : (s.writeResultThenFlag x r f).launched = s.launched := rfl
@[simp] theorem State.writeResultThenFlag_loadReport (s : State) (x : Reg) (r : Byte) (f : Bool) : (s.writeResultThenFlag x r f).loadReport = s.loadReport := rfl
@[simp] theorem State.writeResultThenFlag_schedule (s : State) (x : Reg) (r : Byte) (f : Bool) : (s.writeResultThenFlag x r f).schedule = s.schedule := rfl


@[simp] theorem State.writeRegs_i (s : State) (n : Nat) (bs : List Byte) : (s.writeRegs n bs).i = s.i := by
  induction bs generalizing s n with
  | nil => rfl
  | cons b bs ih => rw [State.writeRegs, ih, State.writeV_i]
@[simp] theorem State.writeRegs_pc (s : State) (n : Nat) (bs : List Byte) : (s.writeRegs n bs).pc = s.pc := by
  induction bs generalizing s n with
  | nil => rfl
  | cons b bs ih => rw [State.writeRegs, ih, State.writeV_pc]
@[simp] theorem State.writeRegs_stack (s : State) (n : Nat) (bs : List Byte) : (s.writeRegs n bs).stack = s.stack := by
  induction bs generalizing s n with
  | nil => rfl
  | cons b bs ih => rw [State.writeRegs, ih, State.writeV_stack]
@[simp] theorem State.writeRegs_sp (s : State) (n : Nat) (bs : List Byte) : (s.writeRegs n bs).sp = s.sp := by
  induction bs generalizing s n with
  | nil => rfl
  | cons b bs ih => rw [State.writeRegs, ih, State.writeV_sp]
@[simp] theorem State.writeRegs_dt (s : State) (n : Nat) (bs : List Byte) : (s.writeRegs n bs).dt = s.dt := by
  induction bs generalizing s n with
  | nil => rfl
  | cons b bs ih => rw [State.writeRegs, ih, State.writeV_dt]
@[simp] theorem State.writeRegs_st (s : State) (n : Nat) (bs : List Byte) : (s.writeRegs n bs).st = s.st := by
  induction bs generalizing s n with
  | nil => rfl
  | cons b bs ih => rw [State.writeRegs, ih, State.writeV_st]
@[simp] theorem State.writeRegs_fb (s : State) (n : Nat) (bs : List Byte) : (s.writeRegs n bs).fb = s.fb := by
  induction bs generalizing s n with
  | nil => rfl
  | cons b bs ih => rw [State.writeRegs, ih, State.writeV_fb]
@[simp] theorem State.writeRegs_k (s : State) (n : Nat) (bs : List Byte) : (s.writeRegs n bs).k = s.k := by
  induction bs generalizing s n with
  | nil => rfl
  | cons b bs ih => rw [State.writeRegs, ih, State.writeV_k]
@[simp] theorem State.writeRegs_mem (s : State) (n : Nat) (bs : List Byte) : (s.writeRegs n bs).mem = s.mem := by
  induction bs generalizing s n with
  | nil => rfl
  | cons b bs ih => rw [State.writeRegs, ih, State.writeV_mem]
@[simp] theorem State.writeRegs_run (s : State) (n : Nat) (bs : List Byte) : (s.writeRegs n bs).run = s.run := by
  induction bs generalizing s n with
  | nil => rfl
  | cons b bs ih => rw [State.writeRegs, ih, State.writeV_run]
@[simp] theorem State.writeRegs_draws (s : State) (n : Nat) (bs : List Byte) : (s.writeRegs n bs).draws = s.draws := by
  induction bs generalizing s n with
  | nil => rfl
  | cons b bs ih => rw [State.writeRegs, ih, State.writeV_draws]
@[simp] theorem State.writeRegs_launched (s : State) (n : Nat) (bs : List Byte) : (s.writeRegs n bs).launched = s.launched := by
  induction bs generalizing s n with
  | nil => rfl
  | cons b bs ih => rw [State.writeRegs, ih, State.writeV_launched]
@[simp] theorem State.writeRegs_loadReport (s : State) (n : Nat) (bs : List Byte) : (s.writeRegs n bs).loadReport = s.loadReport := by
  induction bs generalizing s n with
  | nil => rfl
  | cons b bs ih => rw [State.writeRegs, ih, State.writeV_loadReport]
@[simp] theorem State.writeRegs_schedule (s : State) (n : Nat) (bs : List Byte) : (s.writeRegs n bs).schedule = s.schedule := by
  induction bs generalizing s n with
  | nil => rfl
  | cons b bs ih => rw [State.writeRegs, ih, State.writeV_schedule]

/-! ## The field each update changes -/

@[simp] theorem State.advance_pc (s : State) : s.advance.pc = s.pc + 2 := rfl
@[simp] theorem State.skipIf_pc (s : State) (c : Bool) :
    (s.skipIf c).pc = if c then s.pc + 2 else s.pc := by cases c <;> rfl
@[simp] theorem State.storeBlock_mem (s : State) (base : Nat) (bs : List Byte) :
    (s.storeBlock base bs).mem = s.mem.writeBlock base bs := rfl
@[simp] theorem takeFault_run (s : State) (kind : FaultKind) : (takeFault kind s).run = .faulted kind := rfl
@[simp] theorem State.tick_dt (s : State) : s.tick.dt = countDown s.dt := rfl
@[simp] theorem State.tick_st (s : State) : s.tick.st = countDown s.st := rfl
@[simp] theorem State.afterFetch_pc (s : State) : s.afterFetch.pc = s.pc + 2 := rfl
@[simp] theorem State.afterFetch_launched (s : State) : s.afterFetch.launched = true := rfl

/-! ## Registers -/

/-- A register read depends on `V` alone. -/
theorem State.readV_congr {s t : State} (h : t.v = s.v) (x : Reg) : t.readV x = s.readV x := by
  simp only [State.readV, h]

@[simp] theorem State.readV_writeV_same (s : State) (x : Reg) (b : Byte) : (s.writeV x b).readV x = b := by
  simp [State.readV, State.writeV]

@[simp] theorem State.readV_writeV_other (s : State) (x r : Reg) (b : Byte) (h : r ≠ x) :
    (s.writeV x b).readV r = s.readV r := by
  have h' : x.toNat ≠ r.toNat := fun e => h (BitVec.eq_of_toNat_eq e.symm)
  simp [State.readV, State.writeV, h']

@[simp] theorem State.readV_advance (s : State) (x : Reg) : s.advance.readV x = s.readV x := rfl
@[simp] theorem State.readV_skipIf (s : State) (c : Bool) (x : Reg) : (s.skipIf c).readV x = s.readV x :=
  State.readV_congr (s.skipIf_v c) x
@[simp] theorem State.readV_storeBlock (s : State) (base : Nat) (bs : List Byte) (x : Reg) :
    (s.storeBlock base bs).readV x = s.readV x := rfl
@[simp] theorem State.readV_takeFault (s : State) (kind : FaultKind) (x : Reg) :
    (takeFault kind s).readV x = s.readV x := rfl
@[simp] theorem State.readV_tick (s : State) (x : Reg) : s.tick.readV x = s.readV x := rfl
@[simp] theorem State.readV_afterFetch (s : State) (x : Reg) : s.afterFetch.readV x = s.readV x := rfl

/-- The flag is what remains in `VF`, whatever `x` is (41_load_arith_logic.md R123). -/
@[simp] theorem State.readV_writeResultThenFlag_vf (s : State) (x : Reg) (r : Byte) (f : Bool) :
    (s.writeResultThenFlag x r f).readV vf = flagByte f := by
  simp [State.writeResultThenFlag]

theorem State.readV_writeResultThenFlag_dest (s : State) (x : Reg) (r : Byte) (f : Bool) (h : x ≠ vf) :
    (s.writeResultThenFlag x r f).readV x = r := by
  rw [State.writeResultThenFlag, State.readV_writeV_other _ _ _ _ h, State.readV_writeV_same]

theorem State.readV_writeResultThenFlag_other (s : State) (x q : Reg) (r : Byte) (f : Bool) (h : q ≠ x)
    (h' : q ≠ vf) : (s.writeResultThenFlag x r f).readV q = s.readV q := by
  rw [State.writeResultThenFlag, State.readV_writeV_other _ _ _ _ h', State.readV_writeV_other _ _ _ _ h]

/-- Consecutive registers written from `V[n]` upward hold the bytes, and no other register changes
(42_index_memory.md R135). -/
theorem State.readV_writeRegs (s : State) (n : Nat) (bs : List Byte) (hn : n + bs.length ≤ 16) (r : Reg) :
    (s.writeRegs n bs).readV r =
      if h : n ≤ r.toNat ∧ r.toNat < n + bs.length then bs[r.toNat - n]'(by omega) else s.readV r := by
  induction bs generalizing s n with
  | nil =>
    have : ¬ (n ≤ r.toNat ∧ r.toNat < n + ([] : List Byte).length) := by
      simp only [List.length_nil]; omega
    rw [dif_neg this]; rfl
  | cons b bs ih =>
    simp only [List.length_cons] at hn ⊢
    have hr := r.isLt
    rw [State.writeRegs, ih _ (n + 1) (by omega)]
    have hk : (BitVec.ofNat 4 n).toNat = n := by simp; omega
    by_cases he : r.toNat = n
    · have hre : r = BitVec.ofNat 4 n := BitVec.eq_of_toNat_eq (by rw [hk, he])
      rw [dif_neg (by omega), dif_pos (by omega), ← hre, State.readV_writeV_same]
      simp [he]
    · have hre : r ≠ BitVec.ofNat 4 n := fun e => he (by rw [e, hk])
      by_cases hin : n ≤ r.toNat ∧ r.toNat < n + (bs.length + 1)
      · rw [dif_pos (by omega), dif_pos hin]
        have : r.toNat - n = (r.toNat - (n + 1)) + 1 := by omega
        simp only [this, List.getElem_cons_succ]
      · rw [dif_neg (by omega), dif_neg hin, State.readV_writeV_other _ _ _ _ hre]

/-! ## Keys -/

theorem State.key_setKeyBit_same (s : State) (code : Nat) (b : Bool) (h : code < 16) :
    (s.setKeyBit code b).key code = b := by
  simp [State.key, State.setKeyBit, h]

theorem State.key_setKeyBit_other (s : State) (code c : Nat) (b : Bool) (h : c ≠ code) :
    (s.setKeyBit code b).key c = s.key c := by
  unfold State.setKeyBit
  split
  · simp [State.key, Ne.symm h]
  · rfl

/-! ## Pixels -/

/-- Toggling flips one pixel of the grid and leaves every other (10_state.md R26). -/
theorem Framebuffer.pixel_toggle (fb : Framebuffer) (x y px py : Nat) (hx : x < 64) (hy : y < 32) :
    (fb.toggle x y).pixel px py = if px = x ∧ py = y then !fb.pixel px py else fb.pixel px py := by
  simp only [Framebuffer.toggle, hx, hy, and_self, dite_true, Framebuffer.pixel, Vector.getElem_set]
  split
  · by_cases h1 : y = py
    · subst h1
      by_cases h2 : x = px
      · subst h2; simp
      · simp [h2, Ne.symm h2]
    · simp [h1, Ne.symm h1]
  · rename_i h
    have : ¬ (px = x ∧ py = y) := fun e => h ⟨e.2 ▸ hy, e.1 ▸ hx⟩
    simp [this]

/-- Two framebuffers with the same pixels are equal. -/
theorem Framebuffer.ext_pixel {a b : Framebuffer}
    (h : ∀ x y, x < 64 → y < 32 → a.pixel x y = b.pixel x y) : a = b := by
  ext y hy x hx
  have := h x y hx hy
  simpa [Framebuffer.pixel, hx, hy] using this

end Sys2Proof.Machine
end

