-- ==== Sys2Proof/Laws/Ops.lean ====
section
/-! SUPPORT. One lemma per shared operation that says what it answers: the bounds check, the stack, the operand
forms, a drawn pixel; and the inversion of a step: whose move it was and what it did. -/

namespace Sys2Proof.Machine

/-! ## Bounds, stack, operands -/

/-- The loads of a block answer the bytes at its addresses exactly when all of them exist
(42_index_memory.md R136). -/
theorem State.loadBytes_eq (s : State) (base n : Nat) :
    s.loadBytes base n =
      if n = 0 ∨ base + n ≤ 4096 then some ((List.range n).map fun j => s.mem.read (base + j)) else none := by
  induction n generalizing base with
  | zero => simp [State.loadBytes]
  | succ n ih =>
    rw [State.loadBytes, ih, State.memRead1]
    by_cases h : base + (n + 1) ≤ 4096
    · have h1 : ¬ base ≥ Config.memSize := by simp only [Config.memSize]; omega
      have h2 : n = 0 ∨ base + 1 + n ≤ 4096 := by omega
      simp only [h1, h2, h, if_true, if_false, or_true, List.range_succ_eq_map, List.map_cons, List.map_map,
        Nat.add_zero]
      congr 2
      refine List.map_congr_left fun j _ => ?_
      simp only [Function.comp]
      congr 1
      omega
    · rw [if_neg (c := n + 1 = 0 ∨ _) (by omega)]
      by_cases h1 : base ≥ Config.memSize
      · simp [h1]
      · simp only [Config.memSize] at h1
        rw [if_neg (c := n = 0 ∨ _) (by omega)]
        split <;> simp_all

/-- The stores of a block write it exactly when all its addresses exist (42_index_memory.md R136). -/
theorem State.storeBytes_eq (s : State) (base : Nat) (bs : List Byte) :
    s.storeBytes base bs =
      if bs = [] ∨ base + bs.length ≤ 4096 then some (s.storeBlock base bs) else none := by
  induction bs generalizing s base with
  | nil => simp [State.storeBytes, State.storeBlock, Memory.writeBlock]
  | cons b bs ih =>
    rw [State.storeBytes, State.memWrite]
    by_cases h1 : base ≥ Config.memSize
    · simp only [Config.memSize] at h1 ⊢
      rw [if_neg (c := b :: bs = [] ∨ _) (by simp; omega)]
      simp [h1]
    · simp only [h1, if_false]
      rw [ih]
      simp only [Config.memSize] at h1
      by_cases h : base + (bs.length + 1) ≤ 4096
      · have h2 : bs = [] ∨ base + 1 + bs.length ≤ 4096 := by omega
        rw [if_pos h2, if_pos (by simp only [List.length_cons]; omega)]
        rfl
      · have h2 : ¬ (bs = [] ∨ base + 1 + bs.length ≤ 4096) := by
          rintro (rfl | h3)
          · simp only [List.length_nil] at h; omega
          · omega
        rw [if_neg h2, if_neg (by simp; omega)]

/-- A block store that completes keeps the memory in canonical form. -/
theorem State.storeBytes_wf {s t : State} {base : Nat} {bs : List Byte} (h : s.mem.wf = true)
    (ht : s.storeBytes base bs = some t) : t.mem.wf = true := by
  rw [State.storeBytes_eq] at ht
  split at ht
  · rename_i hb
    cases ht
    rcases hb with rfl | hb
    · exact h
    · exact Memory.writeBlock_wf h base bs hb
  · cases ht

theorem State.push_of_lt (s : State) (a : Word) (h : s.sp.val < 12) :
    s.push a =
      some { s with stack := s.stack.set s.sp.val a h, sp := ⟨s.sp.val + 1, Nat.succ_lt_succ h⟩ } := by
  simp [State.push, h]

theorem State.push_of_full (s : State) (a : Word) (h : s.sp.val = 12) : s.push a = none := by
  simp [State.push, h]

/-- Everything `Push` can do. -/
theorem State.push_cases {s s' : State} {a : Word} (h : s.push a = some s') :
    ∃ hlt : s.sp.val < 12,
      s' = { s with stack := s.stack.set s.sp.val a hlt, sp := ⟨s.sp.val + 1, Nat.succ_lt_succ hlt⟩ } := by
  unfold State.push at h
  split at h
  · rename_i hlt; exact ⟨hlt, by simpa using h.symm⟩
  · cases h

/-- `Pop` fails on an empty stack only. -/
theorem State.pop_eq_none (s : State) : s.pop = none ↔ s.sp.val = 0 := by
  unfold State.pop
  split <;> simp_all

/-- Everything `Pop` can do: the slot at the new `SP`, and `SP` one less. -/
theorem State.pop_cases {s s' : State} {a : Word} (h : s.pop = some (a, s')) :
    ∃ (n : Nat) (hn : n < 12), s.sp.val = n + 1 ∧ a = s.stack[n] ∧
      s' = { s with sp := ⟨n, Nat.lt_succ_of_lt hn⟩ } := by
  unfold State.pop at h
  split at h
  · cases h
  · rename_i n hlt heq
    simp only [Option.some.injEq, Prod.mk.injEq] at h
    exact ⟨n, Nat.lt_of_succ_lt_succ hlt, by simp [heq], h.1.symm, h.2.symm⟩

@[simp] theorem toNat_zext12 (nnn : Addr12) : (zext12 nnn).toNat = nnn.toNat := by
  have := nnn.isLt
  simp [zext12]; omega

@[simp] theorem toNat_zext8 (b : Byte) : (zext8 b).toNat = b.toNat := by
  have := b.isLt
  simp [zext8]; omega

@[simp] theorem toNat_glyphAddr (b : Byte) : (glyphAddr b).toNat = 0x050 + 5 * b.toNat := by
  have := b.isLt
  simp [glyphAddr, Config.fontBase]; omega

@[simp] theorem length_bcdDigits (b : Byte) : (bcdDigits b).length = 3 := rfl

@[simp] theorem State.length_regBlock (s : State) (x : Reg) : (s.regBlock x).length = x.toNat + 1 := by
  have := x.isLt
  simp [State.regBlock]; omega

theorem State.getElem_regBlock (s : State) (x : Reg) (j : Nat) (hj : j < x.toNat + 1) :
    (s.regBlock x)[j]'(by simpa using hj) = s.readV (BitVec.ofNat 4 j) := by
  have hx := x.isLt
  have : (BitVec.ofNat 4 j).toNat = j := by simp; omega
  simp [State.regBlock, State.readV, this]

/-! ## Drawing -/

/-- A drawn pixel toggles one pixel of the grid, and hits when it was set (43_display.md R141). -/
theorem pixel_drawPixel (cv : Canvas) (x y px py : Nat) (hx : x < 64) (hy : y < 32) :
    (drawPixel cv x y).1.pixel px py = if px = x ∧ py = y then !cv.1.pixel px py else cv.1.pixel px py :=
  Framebuffer.pixel_toggle cv.1 x y px py hx hy

theorem hit_drawPixel (cv : Canvas) (x y : Nat) : (drawPixel cv x y).2 = (cv.2 || cv.1.pixel x y) := rfl

/-- A cleared framebuffer has no pixel set (43_display.md R140). -/
@[simp] theorem Framebuffer.pixel_clear (x y : Nat) : Framebuffer.clear.pixel x y = false := by
  unfold Framebuffer.pixel
  split <;> simp [Framebuffer.clear]

/-! ## The inversion of a step -/

/-- Everything an instruction step can do (30_encoding.md R74): a fetch fault, an Unknown word, or the decoded
instruction. -/
theorem instructionStep_cases (s : State) :
    (s.memRead2 s.pc.toNat = none ∧
        instructionStep s = .next (takeFault .outOfBounds { s with launched := true })) ∨
    (∃ w, s.memRead2 s.pc.toNat = some w ∧ decodeWord w = none ∧
        instructionStep s = .next (takeFault (.unknownInstruction w) s.afterFetch)) ∨
    (∃ w i, s.memRead2 s.pc.toNat = some w ∧ decodeWord w = some i ∧
        instructionStep s = exec i s.afterFetch) := by
  unfold instructionStep
  cases hf : s.memRead2 s.pc.toNat with
  | none => exact .inl ⟨rfl, rfl⟩
  | some w =>
    cases hd : decodeWord w with
    | none => exact .inr (.inl ⟨w, rfl, hd, by simp [hd, takeUnknown, unknownPolicy]⟩)
    | some i => exact .inr (.inr ⟨w, i, rfl, hd, by simp [hd]⟩)

/-- Everything the Executor's turn can answer with a next state (10_state.md R29). -/
theorem executorTurn_cases {s t : State} (h : executorTurn s = .next t) :
    (s.run = .ready ∧ instructionStep s = .next t) ∨ (∃ x, s.run = .awaitKey x ∧ t = s) := by
  unfold executorTurn at h
  split at h <;> rename_i hr
  · exact .inl ⟨hr, h⟩
  · exact .inr ⟨_, hr, by simpa using h.symm⟩
  · cases h
  · cases h

/-- Everything a step that goes on can be: the Executor's turn, with nothing scheduled or its turn at the head,
or the event at the head of the schedule (00_scope.md R12). -/
theorem step_cases {s t : State} (h : step s = .next t) :
    (s.schedule = [] ∧ executorTurn s = .next t) ∨
    (∃ rest, s.schedule = .executor :: rest ∧ executorTurn { s with schedule := rest } = .next t) ∨
    (∃ e rest, s.schedule = .host e :: rest ∧ hostEvent e { s with schedule := rest } = .next t) := by
  unfold step takeTurn at h
  split at h <;> rename_i hs
  · exact .inl ⟨hs, h⟩
  · exact .inr (.inl ⟨_, hs, h⟩)
  · exact .inr (.inr ⟨_, _, hs, h⟩)

/-- When the Executor moves next the step is its turn, taken off the schedule (00_scope.md R12). -/
theorem step_of_executorMovesNext {s : State} {rest : List Turn} (h : s.ExecutorMovesNext rest) :
    step s = executorTurn { s with schedule := rest } := by
  obtain hs | ⟨hs, rfl⟩ := h
  · simp only [step, takeTurn, hs]
  · cases s
    cases hs
    rfl

/-- Everything an event from outside can do (60_exceptions.md R179, 70_reset_and_hazards.md R200, R202). -/
theorem hostEvent_cases {e : HostEvent} {s t : State} (h : hostEvent e s = .next t) :
    (e = .tick ∧ t = s.tick) ∨ (∃ code pressed, e = .setKey code pressed ∧ t = s.setKey code pressed) ∨
    (e = .cancel ∧ t = s.cancel) ∨ (e = .reset ∧ t = s.resetEvent) ∨
    (∃ image, e = .loadProgram image ∧ s.launched = false ∧ t = s.loadProgram image) := by
  cases e with
  | tick => exact .inl ⟨rfl, by simpa [hostEvent] using h.symm⟩
  | setKey code pressed => exact .inr (.inl ⟨_, _, rfl, by simpa [hostEvent] using h.symm⟩)
  | cancel => exact .inr (.inr (.inl ⟨rfl, by simpa [hostEvent] using h.symm⟩))
  | reset => exact .inr (.inr (.inr (.inl ⟨rfl, by simpa [hostEvent] using h.symm⟩)))
  | loadProgram image =>
    simp only [hostEvent] at h
    split at h
    · cases h
    · rename_i hl
      exact .inr (.inr (.inr (.inr ⟨_, rfl, by simpa using hl, by simpa using h.symm⟩)))

end Sys2Proof.Machine
end

