-- ==== Sys2Proof/Laws/PerInstr.lean ====
section
/-! SUPPORT. Family `InRow`: the word an instruction is encoded as belongs to its own row of
spec/opcode_table.json (30_encoding.md R87), one lemma per constructor. -/

namespace Sys2Proof.Laws.InRow

/-- `(encode i & mask) = match` for the mask and match of `i`'s row (R87). -/
def Statement (i : Instr) : Prop := i.row.covers (encode i) = true

theorem cls : Statement (.cls) := by
  simp [Statement, Row.covers, Instr.row, encode]
theorem ret : Statement (.ret) := by
  simp [Statement, Row.covers, Instr.row, encode]
theorem jp (nnn : Addr12) : Statement (.jp nnn) := by
  simp [Statement, Row.covers, Instr.row, encode]
  decide
theorem call (nnn : Addr12) : Statement (.call nnn) := by
  simp [Statement, Row.covers, Instr.row, encode]
  decide
theorem seVxNn (x : Reg) (nn : Byte) : Statement (.seVxNn x nn) := by
  simp [Statement, Row.covers, Instr.row, encode]
  decide
theorem sneVxNn (x : Reg) (nn : Byte) : Statement (.sneVxNn x nn) := by
  simp [Statement, Row.covers, Instr.row, encode]
  decide
theorem seVxVy (x y : Reg) : Statement (.seVxVy x y) := by
  simp [Statement, Row.covers, Instr.row, encode]
  decide
theorem ldVxNn (x : Reg) (nn : Byte) : Statement (.ldVxNn x nn) := by
  simp [Statement, Row.covers, Instr.row, encode]
  decide
theorem addVxNn (x : Reg) (nn : Byte) : Statement (.addVxNn x nn) := by
  simp [Statement, Row.covers, Instr.row, encode]
  decide
theorem ldVxVy (x y : Reg) : Statement (.ldVxVy x y) := by
  simp [Statement, Row.covers, Instr.row, encode]
  decide
theorem orVxVy (x y : Reg) : Statement (.orVxVy x y) := by
  simp [Statement, Row.covers, Instr.row, encode]
  decide
theorem andVxVy (x y : Reg) : Statement (.andVxVy x y) := by
  simp [Statement, Row.covers, Instr.row, encode]
  decide
theorem xorVxVy (x y : Reg) : Statement (.xorVxVy x y) := by
  simp [Statement, Row.covers, Instr.row, encode]
  decide
theorem addVxVy (x y : Reg) : Statement (.addVxVy x y) := by
  simp [Statement, Row.covers, Instr.row, encode]
  decide
theorem subVxVy (x y : Reg) : Statement (.subVxVy x y) := by
  simp [Statement, Row.covers, Instr.row, encode]
  decide
theorem shrVx (x : Reg) : Statement (.shrVx x) := by
  simp [Statement, Row.covers, Instr.row, encode]
  decide
theorem subnVxVy (x y : Reg) : Statement (.subnVxVy x y) := by
  simp [Statement, Row.covers, Instr.row, encode]
  decide
theorem shlVx (x : Reg) : Statement (.shlVx x) := by
  simp [Statement, Row.covers, Instr.row, encode]
  decide
theorem sneVxVy (x y : Reg) : Statement (.sneVxVy x y) := by
  simp [Statement, Row.covers, Instr.row, encode]
  decide
theorem ldINnn (nnn : Addr12) : Statement (.ldINnn nnn) := by
  simp [Statement, Row.covers, Instr.row, encode]
  decide
theorem jpV0Nnn (nnn : Addr12) : Statement (.jpV0Nnn nnn) := by
  simp [Statement, Row.covers, Instr.row, encode]
  decide
theorem rndVxNn (x : Reg) (nn : Byte) : Statement (.rndVxNn x nn) := by
  simp [Statement, Row.covers, Instr.row, encode]
  decide
theorem drwVxVyN (x y : Reg) (n : Nibble) : Statement (.drwVxVyN x y n) := by
  simp [Statement, Row.covers, Instr.row, encode]
  decide
theorem skpVx (x : Reg) : Statement (.skpVx x) := by
  simp [Statement, Row.covers, Instr.row, encode]
  decide
theorem sknpVx (x : Reg) : Statement (.sknpVx x) := by
  simp [Statement, Row.covers, Instr.row, encode]
  decide
theorem ldVxDt (x : Reg) : Statement (.ldVxDt x) := by
  simp [Statement, Row.covers, Instr.row, encode]
  decide
theorem ldVxK (x : Reg) : Statement (.ldVxK x) := by
  simp [Statement, Row.covers, Instr.row, encode]
  decide
theorem ldDtVx (x : Reg) : Statement (.ldDtVx x) := by
  simp [Statement, Row.covers, Instr.row, encode]
  decide
theorem ldStVx (x : Reg) : Statement (.ldStVx x) := by
  simp [Statement, Row.covers, Instr.row, encode]
  decide
theorem addIVx (x : Reg) : Statement (.addIVx x) := by
  simp [Statement, Row.covers, Instr.row, encode]
  decide
theorem ldFVx (x : Reg) : Statement (.ldFVx x) := by
  simp [Statement, Row.covers, Instr.row, encode]
  decide
theorem ldBVx (x : Reg) : Statement (.ldBVx x) := by
  simp [Statement, Row.covers, Instr.row, encode]
  decide
theorem ldMemVx (x : Reg) : Statement (.ldMemVx x) := by
  simp [Statement, Row.covers, Instr.row, encode]
  decide
theorem ldVxMem (x : Reg) : Statement (.ldVxMem x) := by
  simp [Statement, Row.covers, Instr.row, encode]
  decide

end Sys2Proof.Laws.InRow
end

