-- ==== Sys2Proof/Tests/Slice0.lean ====
section
/-! SUPPORT. The model's own tests: ill-formed terms, each constructor's word, one-step vectors of
95_test_vectors.md, and for every statement with hypotheses a state and operands that meet them. Expected values
are the spec's, copied from the rule or vector named. -/

namespace Sys2Proof.Tests

open Sys2Proof Sys2Proof.Machine

/-! ## Helpers -/

/-- The step from `s` goes on to a state that satisfies `p`. -/
def stepsTo (s : State) (p : State → Bool) : Bool :=
  match step s with
  | .next t => p t
  | _ => false

/-- `s` with the word `w` placed where the next step fetches. -/
def withWord (s : State) (w : Nat) : State := s.withFetchWord 16 w

/-- The reset state with `V0` and `V1`. -/
def withV01 (a b : Byte) : State := (State.reset.writeV 0 a).writeV 1 b

/-- The pixels of the grid that are set, as `(x, y)`, in the given rows. -/
def setPixels (s : State) (rows : List Nat) : List (Nat × Nat) :=
  rows.flatMap fun y => (List.range 64).filterMap fun x => if s.fb.pixel x y then some (x, y) else none

/-! ## Well-formedness: each check refuses an ill-formed term -/

/-- R82, R76 to R79: one Unknown word of each family. -/
theorem test_unknown_words_refused :
    [0x0000, 0x01E0, 0x8008, 0x800F, 0xE09F, 0xF066, 0xFFFF].all (fun w => !isInstructionWord (BitVec.ofNat 16 w)) := by
  decide

/-- R87: the 34 words with zero operands are instruction words. -/
theorem test_table_words_accepted : opcodeTable.all (fun r => isInstructionWord r.value) = true := by decide

/-- R208: each of the three inequalities, broken. -/
theorem test_bad_params_refused :
    Config.Params.wellFormed ⟨4096, 0x200, 0x1B1⟩ = false ∧ Config.Params.wellFormed ⟨0x1FF, 0x200, 0x050⟩ = false ∧
      Config.Params.wellFormed ⟨65537, 0x200, 0x050⟩ = false := by decide

/-- R208: the values taken satisfy the constraint. -/
theorem test_taken_params_accepted : Config.taken.wellFormed = true := by decide

/-- R202: an image of 3585 bytes is too large, one of 3584 fits. -/
theorem test_image_bound :
    imageFits (List.replicate 3585 0) = false ∧ imageFits (List.replicate 3584 0) = true := by
  constructor <;> (rw [imageFits, List.length_replicate]; decide)

/-- The canonical form refuses an unsorted list, a listed reset value and an address that does not exist. -/
theorem test_memory_wf_refuses :
    Memory.wf [(5, 1), (3, 1)] = false ∧ Memory.wf [(0x300, 0)] = false ∧ Memory.wf [(0x050, 0xF0)] = false ∧
      Memory.wf [(4096, 1)] = false := by decide

/-! ## Decoding: the word of each constructor, written out from its rule's encoding -/

theorem test_decode_cls : decodeTableWord 16 0b0000000011100000 = some .cls := by decide
theorem test_decode_ret : decodeTableWord 16 0b0000000011101110 = some .ret := by decide
theorem test_decode_jp : decodeTableWord 16 0b0001001000000100 = some (.jp 0x204) := by decide
theorem test_decode_call : decodeTableWord 16 0b0010001000001000 = some (.call 0x208) := by decide
theorem test_decode_seVxNn : decodeTableWord 16 0b0011000100000000 = some (.seVxNn 1 0x00) := by decide
theorem test_decode_sneVxNn : decodeTableWord 16 0b0100001000001000 = some (.sneVxNn 2 0x08) := by decide
theorem test_decode_seVxVy : decodeTableWord 16 0b0101000000010000 = some (.seVxVy 0 1) := by decide
theorem test_decode_seVxVy_ignored : decodeTableWord 16 0b0101000000010001 = some (.seVxVy 0 1) := by decide
theorem test_decode_ldVxNn : decodeTableWord 16 0b0110000011101010 = some (.ldVxNn 0 0xEA) := by decide
theorem test_decode_addVxNn : decodeTableWord 16 0b0111000111111111 = some (.addVxNn 1 0xFF) := by decide
theorem test_decode_ldVxVy : decodeTableWord 16 0b1000001000110000 = some (.ldVxVy 2 3) := by decide
theorem test_decode_orVxVy : decodeTableWord 16 0b1000000000010001 = some (.orVxVy 0 1) := by decide
theorem test_decode_andVxVy : decodeTableWord 16 0b1000000000010010 = some (.andVxVy 0 1) := by decide
theorem test_decode_xorVxVy : decodeTableWord 16 0b1000000000010011 = some (.xorVxVy 0 1) := by decide
theorem test_decode_addVxVy : decodeTableWord 16 0b1000000000010100 = some (.addVxVy 0 1) := by decide
theorem test_decode_subVxVy : decodeTableWord 16 0b1000000000010101 = some (.subVxVy 0 1) := by decide
theorem test_decode_shrVx : decodeTableWord 16 0b1000000100100110 = some (.shrVx 1) := by decide
theorem test_decode_subnVxVy : decodeTableWord 16 0b1000000000010111 = some (.subnVxVy 0 1) := by decide
theorem test_decode_shlVx : decodeTableWord 16 0b1000000000001110 = some (.shlVx 0) := by decide
theorem test_decode_sneVxVy : decodeTableWord 16 0b1001000000010101 = some (.sneVxVy 0 1) := by decide
theorem test_decode_ldINnn : decodeTableWord 16 0b1010000001010000 = some (.ldINnn 0x050) := by decide
theorem test_decode_jpV0Nnn : decodeTableWord 16 0b1011001100000000 = some (.jpV0Nnn 0x300) := by decide
theorem test_decode_rndVxNn : decodeTableWord 16 0b1100001000001111 = some (.rndVxNn 2 0x0F) := by decide
theorem test_decode_drwVxVyN : decodeTableWord 16 0b1101000000010101 = some (.drwVxVyN 0 1 5) := by decide
theorem test_decode_skpVx : decodeTableWord 16 0b1110001110011110 = some (.skpVx 3) := by decide
theorem test_decode_sknpVx : decodeTableWord 16 0b1110001110100001 = some (.sknpVx 3) := by decide
theorem test_decode_ldVxDt : decodeTableWord 16 0b1111000100000111 = some (.ldVxDt 1) := by decide
theorem test_decode_ldVxK : decodeTableWord 16 0b1111001000001010 = some (.ldVxK 2) := by decide
theorem test_decode_ldDtVx : decodeTableWord 16 0b1111000000010101 = some (.ldDtVx 0) := by decide
theorem test_decode_ldStVx : decodeTableWord 16 0b1111010000011000 = some (.ldStVx 4) := by decide
theorem test_decode_addIVx : decodeTableWord 16 0b1111000100011110 = some (.addIVx 1) := by decide
theorem test_decode_ldFVx : decodeTableWord 16 0b1111000000101001 = some (.ldFVx 0) := by decide
theorem test_decode_ldBVx : decodeTableWord 16 0b1111000000110011 = some (.ldBVx 0) := by decide
theorem test_decode_ldMemVx : decodeTableWord 16 0b1111001001010101 = some (.ldMemVx 2) := by decide
theorem test_decode_ldVxMem : decodeTableWord 16 0b1111001001100101 = some (.ldVxMem 2) := by decide

/-- R76 to R79 and the vectors U1 to U5: words that decode to nothing. -/
theorem test_decode_unknown :
    [0x0000, 0x00E1, 0x01E0, 0x00FE, 0x0123, 0x8008, 0x800D, 0xE000, 0xE1A0, 0xF000, 0xF01F].all
      (fun w => (decodeTableWord 16 w).isNone) = true := by decide

/-- R70, R52: the decoder takes two bytes, high byte first, and rejects by name. -/
theorem test_decode_bytes :
    decodeBytes [0xA0, 0x50, 0x12] = .instr (.ldINnn 0x050) [0x12] ∧
      decodeBytes [0x00, 0x00] = .unknownInstruction 0x0000 ∧ decodeBytes [0xA0] = .tooShort := by decide

/-! ## One step each, from the vectors of 95_test_vectors.md -/

/-- CLS, V1. -/
theorem test_step_cls :
    stepsTo (withWord { State.reset with fb := State.reset.fb.toggle 3 4 } 0x00E0) (fun t => !t.fb.pixel 3 4) = true := by decide

/-- RET, C5. -/
theorem test_step_ret :
    stepsTo (withWord { State.reset with stack := State.reset.stack.set 0 0x0206, sp := 1 } 0x00EE) (fun t => t.pc == 0x0206 && t.sp == 0) = true := by decide

/-- C6. -/
theorem test_step_ret_underflow :
    stepsTo (withWord State.reset 0x00EE) (fun t => t.run == .faulted .stackUnderflow && t.sp == 0 && t.pc == 0x0202) = true := by decide

/-- C1. -/
theorem test_step_jp :
    stepsTo (withWord State.reset 0x1204) (fun t => t.pc == 0x0204) = true := by decide

/-- C2. -/
theorem test_step_jp_self :
    stepsTo (withWord State.reset 0x1200) (fun t => t.pc == 0x0200) = true := by decide

/-- C3. -/
theorem test_step_call :
    stepsTo (withWord State.reset 0x2208) (fun t => t.stack[0] == 0x0202 && t.sp == 1 && t.pc == 0x0208) = true := by decide

/-- C4. -/
theorem test_step_call_overflow :
    stepsTo (withWord { State.reset with sp := 12 } 0x2208) (fun t => t.run == .faulted .stackOverflow && t.sp == 12 && t.pc == 0x0202) = true := by decide

/-- C7. -/
theorem test_step_seVxNn_skips :
    stepsTo (withWord State.reset 0x3100) (fun t => t.pc == 0x0204) = true := by decide

/-- C8. -/
theorem test_step_seVxNn_goes_on :
    stepsTo (withWord (State.reset.writeV 1 0x01) 0x3100) (fun t => t.pc == 0x0202) = true := by decide

/-- C9. -/
theorem test_step_sneVxNn_skips :
    stepsTo (withWord (State.reset.writeV 2 0x07) 0x4208) (fun t => t.pc == 0x0204) = true := by decide

/-- C10. -/
theorem test_step_sneVxNn_goes_on :
    stepsTo (withWord (State.reset.writeV 2 0x08) 0x4208) (fun t => t.pc == 0x0202) = true := by decide

/-- C12. -/
theorem test_step_seVxVy_skips :
    stepsTo (withWord (withV01 0x03 0x03) 0x5011) (fun t => t.pc == 0x0204) = true := by decide

/-- C13. -/
theorem test_step_seVxVy_goes_on :
    stepsTo (withWord (withV01 0x03 0x04) 0x5010) (fun t => t.pc == 0x0202) = true := by decide

/-- C15. -/
theorem test_step_sneVxVy_skips :
    stepsTo (withWord (withV01 0x03 0x04) 0x9015) (fun t => t.pc == 0x0204) = true := by decide

/-- C16. -/
theorem test_step_sneVxVy_same :
    stepsTo (withWord (State.reset.writeV 3 0x09) 0x9330) (fun t => t.pc == 0x0202) = true := by decide

/-- C17. -/
theorem test_step_jpV0Nnn :
    stepsTo (withWord (withV01 0x04 0) 0xB300) (fun t => t.pc == 0x0304) = true := by decide

/-- C18. -/
theorem test_step_jpV0Nnn_top :
    stepsTo (withWord (withV01 0xFF 0) 0xBFFF) (fun t => t.pc == 0x10FE) = true := by decide

/-- C20: the last word of memory. -/
theorem test_step_ldVxNn_top :
    stepsTo (withWord { State.reset with pc := 0x0FFE } 0x6001) (fun t => t.readV 0 == 0x01 && t.pc == 0x1000) = true := by decide

/-- A3. -/
theorem test_step_addVxNn :
    stepsTo (withWord ((withV01 0xFF 0).writeV 15 0x55) 0x70FF) (fun t => t.readV 0 == 0xFE && t.readV 15 == 0x55) = true := by decide

/-- A4. -/
theorem test_step_ldVxVy :
    stepsTo (withWord (State.reset.writeV 3 0x7B) 0x8230) (fun t => t.readV 2 == 0x7B) = true := by decide

/-- A5. -/
theorem test_step_orVxVy :
    stepsTo (withWord ((withV01 0xF0 0x0F).writeV 15 0x01) 0x8011) (fun t => t.readV 0 == 0xFF && t.readV 15 == 0x01) = true := by decide

/-- A6. -/
theorem test_step_andVxVy :
    stepsTo (withWord (withV01 0xF3 0x3C) 0x8012) (fun t => t.readV 0 == 0x30) = true := by decide

/-- A7. -/
theorem test_step_xorVxVy :
    stepsTo (withWord (withV01 0xFF 0x0F) 0x8013) (fun t => t.readV 0 == 0xF0) = true := by decide

/-- A9. -/
theorem test_step_addVxVy :
    stepsTo (withWord (withV01 0xFF 0x01) 0x8014) (fun t => t.readV 0 == 0x00 && t.readV 15 == 0x01) = true := by decide

/-- A15. -/
theorem test_step_addVxVy_flag_last :
    stepsTo (withWord (State.reset.writeV 15 0x80) 0x8FF4) (fun t => t.readV 15 == 0x01) = true := by decide

/-- A17. -/
theorem test_step_subVxVy :
    stepsTo (withWord (withV01 0x00 0x01) 0x8015) (fun t => t.readV 0 == 0xFF && t.readV 15 == 0x00) = true := by decide

/-- A18. -/
theorem test_step_subVxVy_equal :
    stepsTo (withWord (withV01 0x07 0x07) 0x8015) (fun t => t.readV 0 == 0x00 && t.readV 15 == 0x01) = true := by decide

/-- A26. -/
theorem test_step_shrVx_in_place :
    stepsTo (withWord ((State.reset.writeV 1 0x05).writeV 2 0xF0) 0x8126) (fun t => t.readV 1 == 0x02 && t.readV 2 == 0xF0 && t.readV 15 == 0x01) = true := by decide

/-- A22. -/
theorem test_step_subnVxVy :
    stepsTo (withWord (withV01 0x0A 0x03) 0x8017) (fun t => t.readV 0 == 0xF9 && t.readV 15 == 0x00) = true := by decide

/-- A21. -/
theorem test_step_subnVxVy_positive :
    stepsTo (withWord (withV01 0x03 0x0A) 0x8017) (fun t => t.readV 0 == 0x07 && t.readV 15 == 0x01) = true := by decide

/-- A28. -/
theorem test_step_shlVx :
    stepsTo (withWord (withV01 0x81 0) 0x800E) (fun t => t.readV 0 == 0x02 && t.readV 15 == 0x01) = true := by decide

/-- A29. -/
theorem test_step_shlVx_no_carry :
    stepsTo (withWord (withV01 0x7F 0) 0x800E) (fun t => t.readV 0 == 0xFE && t.readV 15 == 0x00) = true := by decide

/-- M1. -/
theorem test_step_ldINnn :
    stepsTo (withWord State.reset 0xA050) (fun t => t.i == 0x0050) = true := by decide

/-- M4. -/
theorem test_step_addIVx_past_0FFF :
    stepsTo (withWord { withV01 0x01 0 with i := 0x0FFF } 0xF01E) (fun t => t.i == 0x1000 && t.readV 15 == 0) = true := by decide

/-- M5. -/
theorem test_step_addIVx_wraps :
    stepsTo (withWord { withV01 0x01 0 with i := 0xFFFF } 0xF01E) (fun t => t.i == 0x0000 && t.readV 15 == 0) = true := by decide

/-- M6. -/
theorem test_step_ldFVx :
    stepsTo (withWord (withV01 0xFF 0) 0xF029) (fun t => t.i == 0x054B) = true := by decide

/-- M13. -/
theorem test_step_ldBVx :
    stepsTo (withWord { withV01 0xFF 0 with i := 0x0FFD } 0xF033) (fun t => t.mem.read 0xFFD == 2 && t.mem.read 0xFFE == 5 && t.mem.read 0xFFF == 5) = true := by decide

/-- M14. -/
theorem test_step_ldBVx_out_of_bounds :
    stepsTo (withWord { withV01 0xFF 0 with i := 0x0FFE } 0xF033) (fun t => t.run == .faulted .outOfBounds && t.mem.read 0xFFE == 0 && t.pc == 0x0202) = true := by decide

/-- M8. -/
theorem test_step_ldMemVx :
    stepsTo (withWord { withV01 0x01 0x02 with i := 0x0FFE } 0xF155) (fun t => t.mem.read 0xFFE == 1 && t.mem.read 0xFFF == 2 && t.i == 0x0FFE) = true := by decide

/-- M8. -/
theorem test_step_ldMemVx_out_of_bounds :
    stepsTo (withWord { withV01 0x01 0x02 with i := 0x0FFE } 0xF255) (fun t => t.run == .faulted .outOfBounds && t.mem.read 0xFFE == 0 && t.pc == 0x0202) = true := by decide

/-- M11. -/
theorem test_step_ldVxMem :
    stepsTo (withWord { State.reset with i := 0x0050 } 0xFF65) (fun t => t.readV 0 == 0xF0 && t.readV 6 == 0x60 && t.readV 11 == 0x10 && t.readV 15 == 0xF0) = true := by decide

/-- M9. -/
theorem test_step_ldVxMem_out_of_bounds :
    stepsTo (withWord { withV01 0x77 0 with i := 0x1000 } 0xF065) (fun t => t.run == .faulted .outOfBounds && t.readV 0 == 0x77) = true := by decide

/-- V4 (the source's S4). -/
theorem test_step_drwVxVyN :
    stepsTo (withWord { withV01 0x3C 0x1E with i := 0x0050 } 0xD015) (fun t => setPixels t [0, 30, 31] == [(60, 30), (61, 30), (62, 30), (63, 30), (60, 31), (63, 31)] && t.readV 15 == 0) = true := by decide

/-- V6. -/
theorem test_step_drwVxVyN_wraps_columns :
    stepsTo (withWord { withV01 0x3C 0 with i := 0x0300, mem := [(0x300, 0xFF)] } 0xD011) (fun t => setPixels t [0, 1] == [(0, 0), (1, 0), (2, 0), (3, 0), (60, 0), (61, 0), (62, 0), (63, 0)]) = true := by decide

/-- K1. -/
theorem test_step_skpVx :
    stepsTo (withWord ((withV01 0x07 0).setKeyBit 7 true) 0xE09E) (fun t => t.pc == 0x0204) = true := by decide

/-- K3. -/
theorem test_step_skpVx_bad_code :
    stepsTo (withWord ((withV01 0x17 0).setKeyBit 7 true) 0xE09E) (fun t => t.pc == 0x0202) = true := by decide

/-- K1. -/
theorem test_step_sknpVx :
    stepsTo (withWord ((withV01 0x07 0).setKeyBit 7 true) 0xE0A1) (fun t => t.pc == 0x0202) = true := by decide

/-- K3. -/
theorem test_step_sknpVx_bad_code :
    stepsTo (withWord ((withV01 0x17 0).setKeyBit 7 true) 0xE0A1) (fun t => t.pc == 0x0204) = true := by decide

/-- T1. -/
theorem test_step_ldVxDt :
    stepsTo (withWord { State.reset with dt := 0x2C } 0xF107) (fun t => t.readV 1 == 0x2C) = true := by decide

/-- K4. -/
theorem test_step_ldVxK :
    stepsTo (withWord State.reset 0xF20A) (fun t => t.run == .awaitKey 2 && t.pc == 0x0202 && t.readV 2 == 0) = true := by decide

/-- T2. -/
theorem test_step_ldDtVx :
    stepsTo (withWord (withV01 0x05 0) 0xF015) (fun t => t.dt == 0x05) = true := by decide

/-- T4. -/
theorem test_step_ldStVx :
    stepsTo (withWord (State.reset.writeV 4 0x01) 0xF418) (fun t => t.st == 0x01) = true := by decide

/-- U1. -/
theorem test_step_unknown :
    stepsTo (withWord State.reset 0x0000) (fun t => t.run == .faulted (.unknownInstruction 0x0000) && t.pc == 0x0202) = true := by decide

/-- C19. -/
theorem test_step_fetch_out_of_bounds :
    stepsTo { State.reset with pc := 0x0FFF } (fun t => t.run == .faulted .outOfBounds && t.pc == 0x0FFF) = true := by decide

/-- A33: any draw. -/
theorem test_step_rndVxNn_zero_mask :
    stepsTo (withWord State.reset 0xC200) (fun t => t.draws == 1) = true := by decide

/-- V7: a set pixel that is covered is unset, and `VF` reports the collision. -/
theorem test_step_drwVxVyN_collision :
    stepsTo (withWord { State.reset with i := 0x0300, mem := [(0x300, 0xC0)], fb := State.reset.fb.toggle 1 0 } 0xD011)
      (fun t => setPixels t [0] == [(0, 0)] && t.readV 15 == 1) = true := by decide

/-! ## The events from outside -/

/-- T5: the timers are independent, and a tick stops at 0. -/
theorem test_tick :
    stepsTo { State.reset with dt := 3, schedule := [.host .tick] } (fun t => t.dt == 2 && t.st == 0) = true := by
  decide

/-- T6: a tick is taken after a fault. -/
theorem test_tick_faulted :
    stepsTo { State.reset with dt := 3, run := .faulted .outOfBounds, schedule := [.host .tick] }
      (fun t => t.dt == 2 && t.run == .faulted .outOfBounds) = true := by decide

/-- K5: a press edge resumes the wait. -/
theorem test_setKey_resumes :
    stepsTo { State.reset with run := .awaitKey 2, schedule := [.host (.setKey 7 true)] }
      (fun t => t.key 7 && t.readV 2 == 7 && t.run == .ready) = true := by decide

/-- K6: a press of a held key is no edge. -/
theorem test_setKey_held :
    stepsTo { State.reset.setKeyBit 7 true with run := .awaitKey 2, schedule := [.host (.setKey 7 true)] }
      (fun t => t.run == .awaitKey 2 && t.readV 2 == 0) = true := by decide

/-- K10: a code above 15 has no effect. -/
theorem test_setKey_bad_code :
    stepsTo { State.reset with schedule := [.host (.setKey 0x10 true)] } (fun t => t.k == State.reset.k) = true := by
  decide

/-- K9: cancellation ends a key wait without writing the register. -/
theorem test_cancel :
    stepsTo { State.reset with run := .awaitKey 2, schedule := [.host .cancel] }
      (fun t => t.run == .cancelled && t.readV 2 == 0) = true := by decide

/-- R203: the image is loaded at 0x200. -/
theorem test_load :
    stepsTo { State.reset with schedule := [.host (.loadProgram [0x12, 0x00])] }
      (fun t => t.mem.read 0x200 == 0x12 && t.loadReport == some .ok) = true := by decide

/-- R200: reset leaves a fault. -/
theorem test_reset :
    stepsTo { State.reset with run := .cancelled, dt := 9, schedule := [.host .reset] }
      (fun t => t.run == .ready && t.dt == 0) = true := by decide

/-! ## Witnesses: for each statement with hypotheses, a state and operands that meet them -/

/-- A loaded, ready state: `JP 0x200` at 0x200, the stack full of 0x0202. -/
def fullStack : State :=
  { withWord State.reset 0x1200 with sp := 12, stack := Vector.replicate 12 0x0202, launched := true }

/-- A state in which the last word of memory is `LD V0, 0x01`. -/
def atTop : State := withWord { State.reset with pc := 0x0FFE } 0x6001

theorem wit_EncodeOfDecode : decodeWord 0x5011 = some (.seVxVy 0 1) := by decide

theorem wit_DecoderMatchesOpcodeTable :
    decodeWord 0x812E = some (.shlVx 1) ∧ (Instr.shlVx 0).row ∈ opcodeTable ∧ (Instr.shlVx 0).row.covers 0x812E = true := by
  decide

theorem wit_StepKeepsInvariant :
    atTop.Inv ∧ fullStack.Inv ∧ stepsTo atTop (fun t => t.pc == 0x1000) = true ∧
      stepsTo fullStack (fun t => t.pc == 0x0200) = true := by decide

theorem wit_ResetEventRestoresReset :
    ({ fullStack with schedule := [.host .reset, .executor] } : State).schedule = .host .reset :: [.executor] := rfl

theorem wit_LoadProgramCopiesImage :
    (∀ image : List Byte, ({ State.reset with schedule := [.host (.loadProgram image)] } : State).schedule =
        .host (.loadProgram image) :: []) ∧
      State.reset.launched = false ∧ State.reset.mem.wf = true ∧
      0x200 + (List.replicate 3584 (0 : Byte)).length ≤ 4096 ∧ 0x200 + (List.replicate 3585 (0 : Byte)).length > 4096 ∧
      fullStack.launched = true :=
  ⟨fun _ => rfl, rfl, rfl, by rw [List.length_replicate], by rw [List.length_replicate]; decide, rfl⟩

theorem wit_MemReadChecksBounds :
    4096 + 1 - 1 ≥ 4096 ∧ 4095 + 1 - 1 < 4096 ∧ 4095 + 2 - 1 ≥ 4096 ∧ 4094 + 2 - 1 < 4096 := by decide

theorem wit_MemWriteThenRead : atTop.mem.wf = true ∧ 4096 ≥ 4096 ∧ 4095 < 4096 := by decide

theorem wit_CanonicalMemoriesEqual :
    Memory.wf [(0x300, 1)] = true ∧ ∀ a, Memory.read [(0x300, 1)] a = Memory.read [(0x300, 1)] a :=
  ⟨by decide, fun _ => rfl⟩

theorem wit_PushAndPop :
    fullStack.sp.val = 12 ∧ ({ fullStack with sp := 11 } : State).sp.val < 12 ∧ State.reset.sp.val = 0 ∧
      fullStack.sp.val = 11 + 1 ∧ 11 < 12 := by decide

theorem wit_CallThenReturn :
    ({ fullStack with sp := 11 } : State).sp.val < 12 ∧
      ∃ t, exec (.call 0x300) { fullStack with sp := 11 } = .next t ∧ fullStack.sp = t.sp :=
  ⟨by decide, _, rfl, rfl⟩

theorem wit_StepRunsDecodedInstruction :
    atTop.run = .ready ∧ atTop.pc.toNat + 1 < 4096 ∧
      decodeBytes [atTop.mem.read atTop.pc.toNat, atTop.mem.read (atTop.pc.toNat + 1)] = .instr (.ldVxNn 0 0x01) [] ∧
      atTop.schedule = [] ∧ ({ atTop with schedule := [.executor] } : State).schedule = .executor :: [] := by decide

theorem wit_InstructionStepCases :
    State.reset.run = .ready ∧ State.reset.ExecutorMovesNext [] ∧
      State.ExecutorMovesNext { State.reset with schedule := [.executor, .host .tick] } [.host .tick] ∧
      ({ State.reset with pc := 0x0FFF } : State).pc.toNat + 1 ≥ 4096 ∧ State.reset.pc.toNat + 1 < 4096 ∧
      (0x0000 : Word).toNat = (State.reset.mem.read 0x200).toNat * 256 + (State.reset.mem.read 0x201).toNat ∧
      decodeWord 0x0000 = none ∧ atTop.pc.toNat + 1 < 4096 ∧
      (0x6001 : Word).toNat = (atTop.mem.read 0xFFE).toNat * 256 + (atTop.mem.read 0xFFF).toNat ∧
      decodeWord 0x6001 = some (.ldVxNn 0 0x01) := by decide

theorem wit_NoInstructionStepUnlessReady :
    State.ExecutorMovesNext { State.reset with run := .awaitKey 2 } [] ∧
      State.ExecutorMovesNext { State.reset with run := .cancelled, schedule := [.executor] } [] ∧
      ({ State.reset with run := .awaitKey 2 } : State).run = .awaitKey 2 ∧
      ({ State.reset with run := .faulted .stackOverflow } : State).run = .faulted .stackOverflow ∧
      ({ State.reset with run := .cancelled } : State).run = .cancelled := by decide

theorem wit_OnlyResetLeavesEndedRun :
    ({ State.reset with run := .cancelled } : State).IsCancelled ∧
      State.IsFaulted { State.reset with run := .faulted .outOfBounds, schedule := [.host .tick] } ∧
      stepsTo { State.reset with run := .faulted .outOfBounds, schedule := [.host .tick] } (fun _ => true) = true :=
  ⟨rfl, ⟨_, rfl⟩, by decide⟩

theorem wit_TickCountsTimersDown :
    ({ State.reset with dt := 1, schedule := [.host .tick] } : State).schedule = .host .tick :: [] := rfl

theorem wit_SetKeyAndResume :
    ({ State.reset with run := .awaitKey 15, schedule := [.host (.setKey 15 true)] } : State).schedule =
        .host (.setKey 15 true) :: [] ∧
      ({ State.reset with run := .awaitKey 15 } : State).key 15 = false ∧ ¬ 15 > 15 ∧ 16 > 15 ∧
      (State.reset.setKeyBit 15 true).key 15 = true ∧ (∀ x, State.reset.run ≠ .awaitKey x) := by decide

theorem wit_CancelEndsRun :
    ({ State.reset with schedule := [.host .cancel] } : State).schedule = .host .cancel :: [] ∧
      State.reset.run = .ready ∧ ({ State.reset with run := .cancelled } : State).IsCancelled := ⟨rfl, rfl, rfl⟩

theorem wit_KeyWaitEndsOnlyByEvent :
    ({ State.reset with run := .awaitKey 2, schedule := [.host .cancel] } : State).run = .awaitKey 2 ∧
      stepsTo { State.reset with run := .awaitKey 2, schedule := [.host .cancel] } (fun _ => true) = true := by decide

theorem wit_TickCommutesWithInstruction :
    usesTimers .cls = false ∧ ∃ t, exec .cls State.reset = .next t := ⟨rfl, _, rfl⟩

theorem wit_SelfJumpStandsStill :
    fullStack.AtSelfJump ∧ fullStack.launched = true ∧ fullStack.ExecutorMovesNext [] := by
  refine ⟨⟨?_, ?_, ?_⟩, ?_, ?_⟩ <;> decide

theorem wit_StoreSeenByFetch :
    atTop.mem.wf = true ∧ 1 ≤ (1 : Reg).toNat ∧
      ({ atTop with i := 0x0FFE } : State).i.toNat + (1 : Reg).toNat < 4096 := by decide

theorem wit_FaultEntryIsPrecise :
    faultOf .ret State.reset = some .stackUnderflow ∧ faultOf (.call 0) fullStack = some .stackOverflow ∧
      faultOf (.ldBVx 0) { State.reset with i := 0x0FFE } = some .outOfBounds ∧
      faultOf (.ldMemVx 15) { State.reset with i := 0x0FF1 } = some .outOfBounds ∧
      faultOf (.ldVxMem 0) { State.reset with i := 0x1000 } = some .outOfBounds ∧
      faultOf (.drwVxVyN 0 0 15) { State.reset with i := 0x0FF2 } = some .outOfBounds := by decide

theorem wit_EveryInstructionGoesOn :
    faultOf .ret fullStack = none ∧ faultOf (.call 0) { fullStack with sp := 11 } = none ∧
      faultOf (.ldBVx 0) { State.reset with i := 0x0FFD } = none ∧
      faultOf (.ldMemVx 15) { State.reset with i := 0x0FF0 } = none ∧
      faultOf (.drwVxVyN 0 0 0) { State.reset with i := 0x1000 } = none ∧
      faultOf (.drwVxVyN 0 0 15) { State.reset with i := 0x0FF1 } = none := by decide

theorem wit_OnlyNamedRegistersChange :
    ∃ t, exec (.ldVxNn 3 7) State.reset = .next t ∧ t.readV 3 ≠ State.reset.readV 3 := ⟨_, rfl, by decide⟩

theorem wit_OnlyFlagWritersWriteVF :
    (∃ t, exec (.addVxVy 15 15) State.reset = .next t) ∧ writesFlag (.addVxVy 15 15) = true ∧
      faultOf (.addVxVy 15 15) State.reset = none ∧ (∃ t, exec (.ldVxMem 14) State.reset = .next t) ∧
      writesFlag (.ldVxMem 14) = false ∧ destination (.ldVxMem 14) ≠ some 15 :=
  ⟨⟨_, rfl⟩, rfl, rfl, ⟨_, rfl⟩, rfl, by decide⟩

theorem wit_OnlyNamedInstructionsWrite :
    (∃ t, exec .cls State.reset = .next t) ∧ writesIndex .cls = false ∧ writesPc .cls = false ∧
      (Instr.cls ≠ .ret ∧ ∀ nnn, Instr.cls ≠ .call nnn) ∧ (∀ x, Instr.cls ≠ .ldDtVx x) ∧ (∀ x, Instr.cls ≠ .ldStVx x) ∧
      (∀ x, Instr.cls ≠ .ldBVx x ∧ Instr.cls ≠ .ldMemVx x) ∧ (∀ x nn, Instr.cls ≠ .rndVxNn x nn) ∧
      (∃ t, exec (.ldINnn 0) State.reset = .next t) ∧
      (Instr.ldINnn 0 ≠ .cls ∧ ∀ x y n, Instr.ldINnn 0 ≠ .drwVxVyN x y n) :=
  ⟨⟨_, rfl⟩, rfl, rfl, ⟨nofun, nofun⟩, nofun, nofun, fun _ => ⟨nofun, nofun⟩, nofun, ⟨_, rfl⟩, ⟨nofun, nofun⟩⟩

theorem wit_CallPushesReturnAddress : ({ fullStack with sp := 11 } : State).sp.val < 12 := by decide

theorem wit_ThirteenthCallOverflows :
    fullStack.sp.val = 12 ∧ ({ fullStack with sp := 11 } : State).sp.val < 12 := by decide

theorem wit_ReturnPopsAddress : 11 < 12 ∧ fullStack.sp.val = 11 + 1 := by decide

theorem wit_ReturnOnEmptyUnderflows : State.reset.sp.val = 0 := rfl

theorem wit_flag_writers_other_register : (0 : Reg) ≠ 15 := by decide

theorem wit_RandomIsMaskedDraw : (0x00 : Byte) = 0x00 ∧ (0xFF : Byte) = 0xFF := ⟨rfl, rfl⟩

theorem wit_SetIndex : (0xAFFF : Word) &&& 0xF000#16 = 0xA000#16 := by decide

theorem wit_StoreDecimalDigits :
    atTop.mem.wf = true ∧ ({ atTop with i := 0x0FFD } : State).i.toNat + 2 < 4096 := by decide

theorem wit_StoreRegisterBlock :
    atTop.mem.wf = true ∧ ({ atTop with i := 0x0FF0 } : State).i.toNat + (15 : Reg).toNat < 4096 ∧
      (15 : Reg).toNat ≤ (15 : Reg).toNat := by decide

theorem wit_LoadRegisterBlock :
    ({ atTop with i := 0x0FF1 } : State).i.toNat + (14 : Reg).toNat < 4096 ∧ (14 : Reg).toNat ≤ (14 : Reg).toNat ∧
      (15 : Reg).toNat > (14 : Reg).toNat := by decide

theorem wit_StoreThenLoadBlock :
    atTop.mem.wf = true ∧ ({ atTop with i := 0x0FF0 } : State).i.toNat + (15 : Reg).toNat < 4096 ∧
      ∃ t, exec (.ldMemVx 15) { atTop with i := 0x0FF0 } = .next t ∧ t.mem = t.mem ∧ t.i = t.i :=
  ⟨by decide, by decide, _, rfl, rfl, rfl⟩

/-- A state with the pixels (63,31) and (5,5) set, a full row of sprite bits at the last byte of memory, the position
(63, 31) in `V0` and `V1` and (5, 5) in `V2`. -/
def drawState : State :=
  { (withV01 63 31).writeV 2 5 with
    i := 0x0FFF, mem := [(0xFFF, 0xFF)], fb := (State.reset.fb.toggle 63 31).toggle 5 5 }

theorem wit_DrawTogglesCoveredPixels :
    ((0 : Nibble).toNat = 0 ∨ (0x1000 : Word).toNat + (0 : Nibble).toNat - 1 < 4096) ∧
      ((1 : Nibble).toNat = 0 ∨ drawState.i.toNat + (1 : Nibble).toNat - 1 < 4096) ∧
      drawState.SpriteCovers 0 1 1 63 31 ∧ drawState.SpriteCovers 0 1 1 6 31 ∧
      ¬ drawState.SpriteCovers 0 1 1 7 31 ∧ ¬ drawState.SpriteCovers 0 1 1 63 0 ∧
      drawState.fb.pixel 63 31 = true := by decide

theorem wit_DrawTogglesCoveredPixels_collides : drawState.Collides 0 1 1 :=
  ⟨63, by decide, 31, by decide, by decide, by decide⟩

theorem wit_DrawTogglesCoveredPixels_no_collision : ¬ drawState.Collides 0 1 0 := by
  rintro ⟨px, _, py, _, _, r, hr, _⟩
  exact Nat.not_lt_zero r hr

theorem wit_DrawTwiceRestores :
    (0 : Reg) ≠ 15 ∧ (1 : Reg) ≠ 15 ∧
      ((1 : Nibble).toNat = 0 ∨ drawState.i.toNat + (1 : Nibble).toNat - 1 < 4096) := by decide

end Sys2Proof.Tests
end

/-! ## Scope rules: the checked memory operations, the stack, and ticks (00_scope.md R7, R8, R10, R12) -/

namespace Sys2Proof.Machine

/-! ### What the checked memory operations answer -/

theorem State.memRead1_of_ge (s : State) {a : Nat} (h : a ≥ Config.memSize) : s.memRead1 a = none :=
  if_pos h

theorem State.memRead1_of_lt (s : State) {a : Nat} (h : a < Config.memSize) :
    s.memRead1 a = some (s.mem.read a) :=
  if_neg (Nat.not_le.mpr h)

theorem State.memRead2_of_ge (s : State) {a : Nat} (h : a + 1 ≥ Config.memSize) : s.memRead2 a = none :=
  if_pos h

theorem State.memRead2_of_lt (s : State) {a : Nat} (h : a + 1 < Config.memSize) :
    s.memRead2 a = some (wordOfBytes (s.mem.read a) (s.mem.read (a + 1))) :=
  if_neg (Nat.not_le.mpr h)

theorem State.memWrite_of_ge (s : State) {a : Nat} (b : Byte) (h : a ≥ Config.memSize) :
    s.memWrite a b = none :=
  if_pos h

theorem State.memWrite_of_lt (s : State) {a : Nat} (b : Byte) (h : a < Config.memSize) :
    s.memWrite a b = some { s with mem := s.mem.write a b } :=
  if_neg (Nat.not_le.mpr h)

/-! ### Frames of the updates of one piece -/

theorem unchanged_setMem (s : State) (m : Memory) : Unchanged [.mem] s { s with mem := m } := by
  intro p hp
  cases p with
  | mem => exact absurd (List.mem_singleton_self _) hp
  | stack => exact ⟨rfl, rfl⟩
  | v | i | pc | dt | st | fb | k | run | draws | launched | loadReport | schedule => rfl

theorem unchanged_setStack (s : State) (slots : Vector Word 12) (depth : Fin 13) :
    Unchanged [.stack] s { s with stack := slots, sp := depth } := by
  intro p hp
  cases p with
  | stack => exact absurd (List.mem_singleton_self _) hp
  | mem => exact fun _ => rfl
  | v | i | pc | dt | st | fb | k | run | draws | launched | loadReport | schedule => rfl

/-- A write of one byte leaves every address but its own alone (00_scope.md R8). -/
theorem memUnchangedOutside_write (s : State) (a : Nat) (b : Byte) :
    MemUnchangedOutside a 1 s { s with mem := s.mem.write a b } := by
  intro c hc
  exact Memory.read_write_other s.mem a b (by omega)

/-! ### What the stack operations answer, and the errors of `CALL` and `RET` -/

/-- On a stack that holds an entry, `Pop` answers the slot at the new `SP` (00_scope.md R10). -/
theorem State.pop_of_succ (s : State) {n : Nat} (hn : n < 12) (h : s.sp.val = n + 1) :
    s.pop = some (s.stack[n], { s with sp := ⟨n, Nat.lt_succ_of_lt hn⟩ }) := by
  cases hp : s.pop with
  | none =>
    have hzero := s.pop_eq_none.mp hp
    omega
  | some r =>
    obtain ⟨m, hm, hsp, hslot, hstate⟩ := State.pop_cases hp
    obtain rfl : m = n := by omega
    exact congrArg some (Prod.ext hslot hstate)

theorem exec_call_of_push_none {s : State} (nnn : Addr12) (h : s.push s.pc = none) :
    exec (.call nnn) s = .next (takeFault .stackOverflow s) := by
  simp only [exec, execCall, h]

theorem exec_ret_of_pop_none {s : State} (h : s.pop = none) :
    exec .ret s = .next (takeFault .stackUnderflow s) := by
  simp only [exec, execRet, h]

/-! ### Ticks and the operations

A tick writes the two timers alone and no operation of an instruction that names no timer reads or writes
them. Each equation moves the tick from the operand of an operation to its result. -/

/-- The outcome with `f` applied to the next state; a stop stays as it is. -/
def mapNext (f : State → State) : Outcome → Outcome
  | .next s => .next (f s)
  | .fault r => .fault r
  | .refused r => .refused r

@[simp] theorem mapNext_next (f : State → State) (s : State) : mapNext f (.next s) = .next (f s) := rfl

@[simp] theorem State.skipIf_tick (s : State) (c : Bool) : s.tick.skipIf c = (s.skipIf c).tick := by
  cases c <;> rfl

@[simp] theorem State.storeBlock_tick (s : State) (base : Nat) (bs : List Byte) :
    s.tick.storeBlock base bs = (s.storeBlock base bs).tick := rfl

@[simp] theorem State.indexAddr_tick (s : State) (k : Nat) : s.tick.indexAddr k = s.indexAddr k := rfl

@[simp] theorem State.regBlock_tick (s : State) (x : Reg) : s.tick.regBlock x = s.regBlock x := rfl

@[simp] theorem State.writeRegs_tick (s : State) (k : Nat) (bs : List Byte) :
    s.tick.writeRegs k bs = (s.writeRegs k bs).tick := by
  induction bs generalizing s k with
  | nil => rfl
  | cons b bs ih => exact ih (s.writeV (BitVec.ofNat 4 k) b) (k + 1)

@[simp] theorem State.loadBytes_tick (s : State) (base n : Nat) :
    s.tick.loadBytes base n = s.loadBytes base n := by
  simp only [State.loadBytes_eq, State.tick_mem]

@[simp] theorem State.storeBytes_tick (s : State) (base : Nat) (bs : List Byte) :
    s.tick.storeBytes base bs = (s.storeBytes base bs).map State.tick := by
  simp only [State.storeBytes_eq, State.storeBlock_tick]
  split <;> rfl

@[simp] theorem State.push_tick (s : State) (a : Word) : s.tick.push a = (s.push a).map State.tick := by
  rcases Nat.lt_or_eq_of_le (Nat.le_of_lt_succ s.sp.isLt) with hroom | hfull
  · rw [s.push_of_lt a hroom, s.tick.push_of_lt a hroom]
    rfl
  · rw [s.push_of_full a hfull, s.tick.push_of_full a hfull]
    rfl

@[simp] theorem State.pop_tick (s : State) :
    s.tick.pop = s.pop.map fun r => (r.1, r.2.tick) := by
  cases hp : s.pop with
  | none => exact s.tick.pop_eq_none.mpr (s.pop_eq_none.mp hp)
  | some r =>
    obtain ⟨n, hn, hsp, hslot, hstate⟩ := State.pop_cases hp
    rw [s.tick.pop_of_succ hn hsp, Option.map_some, hslot, hstate]
    rfl

/-- Ticks and instructions that name no timer are independent (00_scope.md R12). The control-flow, register and
index instructions compute the same update on both sides; those that can raise an error follow the answer of
their one checked operation. -/
theorem exec_tick {i : Instr} (h : usesTimers i = false) (s : State) :
    exec i s.tick = mapNext State.tick (exec i s) := by
  cases i with
  | ldVxDt | ldDtVx | ldStVx => cases h
  | ret =>
    simp only [exec, execRet, State.pop_tick]
    cases s.pop <;> rfl
  | call =>
    simp only [exec, execCall, State.tick_pc, State.push_tick]
    cases s.push s.pc <;> rfl
  | seVxNn | sneVxNn | seVxVy | sneVxVy | skpVx | sknpVx =>
    exact congrArg Host.Outcome.next (s.skipIf_tick _)
  | drwVxVyN x y n =>
    simp only [exec, execDrwVxVyN, State.spriteRows, State.indexAddr_tick, State.loadBytes_tick]
    cases s.loadBytes (s.indexAddr 0) n.toNat <;> rfl
  | ldBVx x =>
    simp only [exec, execLdBVx, State.indexAddr_tick, State.readV_tick, State.storeBytes_tick]
    cases s.storeBytes (s.indexAddr 0) (bcdDigits (s.readV x)) <;> rfl
  | ldMemVx x =>
    simp only [exec, execLdMemVx, State.indexAddr_tick, State.regBlock_tick, State.storeBytes_tick]
    cases s.storeBytes (s.indexAddr 0) (s.regBlock x) <;> rfl
  | ldVxMem x =>
    simp only [exec, execLdVxMem, State.indexAddr_tick, State.loadBytes_tick, State.writeRegs_tick]
    cases s.loadBytes (s.indexAddr 0) (x.toNat + 1) <;> rfl
  | cls | jp | jpV0Nnn | ldVxNn | addVxNn | ldVxVy | orVxVy | andVxVy | xorVxVy | addVxVy | subVxVy | shrVx
  | subnVxVy | shlVx | rndVxNn | ldINnn | addIVx | ldFVx | ldVxK => rfl

/-! ### The obligations -/

/-- Settles O25: every operation of an instruction that names no timer commutes with the tick (`exec_tick`). -/
theorem tickCommutesWithInstruction : Obligations.TickCommutesWithInstruction := by
  intro i s t hi ht
  rw [exec_tick hi, ht, mapNext_next]

/-- Settles O12, by the two cases of the bounds check of each read. -/
theorem memReadChecksBounds : Obligations.MemReadChecksBounds := by
  intro s a
  exact ⟨s.memRead1_of_ge, s.memRead1_of_lt, s.memRead2_of_ge,
    fun h => ⟨_, s.memRead2_of_lt h, toNat_wordOfBytes _ _⟩⟩

/-- Settles O13, from the laws of `Memory.write` in canonical form. -/
theorem memWriteThenRead : Obligations.MemWriteThenRead := by
  intro s a b hwf
  refine ⟨fun ha => ⟨s.memWrite_of_ge b ha, s.memRead1_of_ge ha⟩, fun ha => ?_⟩
  refine ⟨_, s.memWrite_of_lt b ha, ?_, Memory.write_wf hwf b ha, memUnchangedOutside_write s a b,
    unchanged_setMem s _⟩
  rw [State.memRead1_of_lt _ ha, Memory.read_write_same hwf]

/-- Settles O15, one clause for each case of `Push` and of `Pop`. -/
theorem pushAndPop : Obligations.PushAndPop := by
  intro s a
  refine ⟨fun hfull => ?_, fun hroom => ?_, fun hempty => ?_, fun n hn hsp => ?_⟩
  · exact ⟨s.push_of_full a hfull, fun nnn => exec_call_of_push_none nnn (s.push_of_full s.pc hfull)⟩
  · refine ⟨_, s.push_of_lt a hroom, Vector.getElem_set_self hroom, rfl, ?_, unchanged_setStack s _ _⟩
    exact fun j hj hne => Vector.getElem_set_ne hroom hj hne.symm
  · have hpop : s.pop = none := s.pop_eq_none.mpr hempty
    exact ⟨hpop, exec_ret_of_pop_none hpop⟩
  · exact ⟨_, s.pop_of_succ hn hsp, rfl, rfl, unchanged_setStack s s.stack _⟩

end Sys2Proof.Machine

/-! ## State rules: what an instruction can do, how `RUN` moves, and the invariant (10_state.md) -/

namespace Sys2Proof.Machine

/-! ### The values of reset -/

@[simp] theorem State.readV_reset (x : Reg) : State.reset.readV x = 0x00 := by
  simp [State.readV, State.reset]

@[simp] theorem State.key_reset (code : Nat) : State.reset.key code = false := by
  unfold State.key
  split
  · simp [State.reset]
  · rfl

/-- Outside the font copy the reset contents are zeros (10_state.md R33). -/
theorem Memory.background_outside_font {a : Nat} (h : a < 0x050 ∨ 0x0A0 ≤ a) : Memory.background a = 0x00 := by
  unfold Memory.background
  rw [if_neg]
  simp only [Config.fontBase, Config.fontLen]
  omega

/-! ### The answers of the checked instructions -/

theorem exec_call_of_lt (s : State) (nnn : Addr12) (h : s.sp.val < 12) :
    exec (.call nnn) s = .next { s with
      stack := s.stack.set s.sp.val s.pc h, sp := ⟨s.sp.val + 1, Nat.succ_lt_succ h⟩, pc := zext12 nnn } := by
  simp only [exec, execCall, s.push_of_lt s.pc h]

theorem exec_ret_of_succ (s : State) {n : Nat} (hn : n < 12) (h : s.sp.val = n + 1) :
    exec .ret s = .next { s with sp := ⟨n, Nat.lt_succ_of_lt hn⟩, pc := s.stack[n] } := by
  simp only [exec, execRet, s.pop_of_succ hn h]

/-- A block load that answers holds one byte for each address. -/
theorem State.length_of_loadBytes {s : State} {base n : Nat} {bs : List Byte}
    (h : s.loadBytes base n = some bs) : bs.length = n := by
  rw [State.loadBytes_eq] at h
  split at h
  · cases h
    rw [List.length_map, List.length_range]
  · cases h

/-- A block load raises when the block is not empty and reaches past the memory (42_index_memory.md R136). -/
theorem State.loadBytes_eq_none {s : State} {base n : Nat} (h : s.loadBytes base n = none) :
    0 < n ∧ 4096 < base + n := by
  rw [State.loadBytes_eq] at h
  split at h
  · cases h
  · omega

/-- A store of a block that is not empty answers the stored block when the memory reaches that far, and raises
otherwise (42_index_memory.md R136). -/
theorem State.storeBytes_cases (s : State) (base : Nat) {bs : List Byte} (h : bs ≠ []) :
    (base + bs.length ≤ 4096 ∧ s.storeBytes base bs = some (s.storeBlock base bs)) ∨
    (4096 < base + bs.length ∧ s.storeBytes base bs = none) := by
  rw [State.storeBytes_eq]
  by_cases hb : base + bs.length ≤ 4096
  · exact .inl ⟨hb, if_pos (.inr hb)⟩
  · exact .inr ⟨by omega, if_neg (by simp [h, hb])⟩

/-! ### What an instruction can do -/

/-- The states an instruction can lead to: its error's state (60_exceptions.md R176), or the update of the pieces
its rule names. The updates that several instructions share are told apart by the tables `destination`,
`writesFlag`, `writesPc` and `writesIndex`. -/
inductive Effect (s : State) : Instr → State → Prop
  | fault {i kind} (h : faultOf i s = some kind) : Effect s i (takeFault kind s)
  | register {i x} (b : Byte) (hd : destination i = some x) (hf : writesFlag i = false) :
      Effect s i (s.writeV x b)
  | registerAndFlag {i x} (b : Byte) (f : Bool) (hd : destination i = some x) (hf : writesFlag i = true) :
      Effect s i (s.writeResultThenFlag x b f)
  | skip {i} (c : Bool) (hw : writesPc i = true) (hf : writesFlag i = false) : Effect s i (s.skipIf c)
  | jump {i} (a : Word) (hw : writesPc i = true) (hf : writesFlag i = false) (ha : a.toNat ≤ 0x10FE) :
      Effect s i { s with pc := a }
  | index {i} (a : Word) (hw : writesIndex i = true) (hf : writesFlag i = false) : Effect s i { s with i := a }
  | call (nnn : Addr12) (h : s.sp.val < 12) :
      Effect s (.call nnn) { s with
        stack := s.stack.set s.sp.val s.pc h, sp := ⟨s.sp.val + 1, Nat.succ_lt_succ h⟩, pc := zext12 nnn }
  | ret (n : Nat) (hn : n < 12) (h : s.sp.val = n + 1) :
      Effect s .ret { s with sp := ⟨n, Nat.lt_succ_of_lt hn⟩, pc := s.stack[n] }
  | random (x : Reg) (nn b : Byte) : Effect s (.rndVxNn x nn) { s.writeV x b with draws := s.draws + 1 }
  | clear : Effect s .cls { s with fb := Framebuffer.clear }
  | draw (x y : Reg) (n : Nibble) (fb : Framebuffer) (hit : Bool) :
      Effect s (.drwVxVyN x y n) ({ s with fb := fb }.writeV vf (flagByte hit))
  | awaitKey (x : Reg) : Effect s (.ldVxK x) { s with run := .awaitKey x }
  | delayTimer (x : Reg) : Effect s (.ldDtVx x) { s with dt := s.readV x }
  | soundTimer (x : Reg) : Effect s (.ldStVx x) { s with st := s.readV x }
  | storeDigits (x : Reg) (h : s.indexAddr 0 + (bcdDigits (s.readV x)).length ≤ 4096) :
      Effect s (.ldBVx x) (s.storeBlock (s.indexAddr 0) (bcdDigits (s.readV x)))
  | storeBlock (x : Reg) (h : s.indexAddr 0 + (s.regBlock x).length ≤ 4096) :
      Effect s (.ldMemVx x) (s.storeBlock (s.indexAddr 0) (s.regBlock x))
  | loadBlock (x : Reg) (bs : List Byte) (h : bs.length = x.toNat + 1) :
      Effect s (.ldVxMem x) (s.writeRegs 0 bs)

theorem toNat_jumpTarget_le (nnn : Addr12) (b : Byte) : (zext12 nnn + zext8 b).toNat ≤ 0x10FE := by
  have hnnn := nnn.isLt
  have hb := b.isLt
  rw [BitVec.toNat_add, toNat_zext12, toNat_zext8]
  omega

theorem exec_call_effect (nnn : Addr12) (s : State) :
    ∃ t, exec (.call nnn) s = .next t ∧ Effect s (.call nnn) t := by
  rcases Nat.lt_or_eq_of_le (Nat.le_of_lt_succ s.sp.isLt) with hroom | hfull
  · exact ⟨_, exec_call_of_lt s nnn hroom, .call nnn hroom⟩
  · exact ⟨_, exec_call_of_push_none nnn (s.push_of_full s.pc hfull), .fault (if_pos hfull)⟩

theorem exec_ret_effect (s : State) : ∃ t, exec .ret s = .next t ∧ Effect s .ret t := by
  cases hsp : s.sp.val with
  | zero => exact ⟨_, exec_ret_of_pop_none (s.pop_eq_none.mpr hsp), .fault (if_pos hsp)⟩
  | succ n =>
    have hn : n < 12 := by omega
    exact ⟨_, exec_ret_of_succ s hn hsp, .ret n hn hsp⟩

theorem exec_draw_effect (x y : Reg) (n : Nibble) (s : State) :
    ∃ t, exec (.drwVxVyN x y n) s = .next t ∧ Effect s (.drwVxVyN x y n) t := by
  simp only [exec, execDrwVxVyN]
  cases hrows : s.spriteRows n with
  | some rows => exact ⟨_, rfl, .draw x y n _ _⟩
  | none =>
    obtain ⟨hn, hend⟩ := State.loadBytes_eq_none hrows
    simp only [State.indexAddr] at hend
    exact ⟨_, rfl, .fault (if_pos ⟨hn, by omega⟩)⟩

theorem exec_storeDigits_effect (x : Reg) (s : State) :
    ∃ t, exec (.ldBVx x) s = .next t ∧ Effect s (.ldBVx x) t := by
  have hne : bcdDigits (s.readV x) ≠ [] := List.cons_ne_nil _ _
  simp only [exec, execLdBVx]
  rcases s.storeBytes_cases (s.indexAddr 0) hne with ⟨hend, hs⟩ | ⟨hend, hs⟩
  · exact ⟨_, by rw [hs], .storeDigits x hend⟩
  · simp only [State.indexAddr, length_bcdDigits] at hend
    exact ⟨_, by rw [hs], .fault (if_pos (by omega))⟩

theorem exec_storeBlock_effect (x : Reg) (s : State) :
    ∃ t, exec (.ldMemVx x) s = .next t ∧ Effect s (.ldMemVx x) t := by
  have hne : s.regBlock x ≠ [] := List.ne_nil_of_length_pos (by simp)
  simp only [exec, execLdMemVx]
  rcases s.storeBytes_cases (s.indexAddr 0) hne with ⟨hend, hs⟩ | ⟨hend, hs⟩
  · exact ⟨_, by rw [hs], .storeBlock x hend⟩
  · simp only [State.indexAddr, State.length_regBlock] at hend
    exact ⟨_, by rw [hs], .fault (if_pos (by omega))⟩

theorem exec_loadBlock_effect (x : Reg) (s : State) :
    ∃ t, exec (.ldVxMem x) s = .next t ∧ Effect s (.ldVxMem x) t := by
  simp only [exec, execLdVxMem]
  cases hbs : s.loadBytes (s.indexAddr 0) (x.toNat + 1) with
  | some bs => exact ⟨_, rfl, .loadBlock x bs (State.length_of_loadBytes hbs)⟩
  | none =>
    obtain ⟨-, hend⟩ := State.loadBytes_eq_none hbs
    simp only [State.indexAddr] at hend
    exact ⟨_, rfl, .fault (if_pos (by omega))⟩

/-- Every instruction goes on, to one of the states of `Effect`. -/
theorem exec_effect (i : Instr) (s : State) : ∃ t, exec i s = .next t ∧ Effect s i t := by
  cases i with
  | call nnn => exact exec_call_effect nnn s
  | ret => exact exec_ret_effect s
  | drwVxVyN x y n => exact exec_draw_effect x y n s
  | ldBVx x => exact exec_storeDigits_effect x s
  | ldMemVx x => exact exec_storeBlock_effect x s
  | ldVxMem x => exact exec_loadBlock_effect x s
  | ldVxNn | addVxNn | ldVxVy | orVxVy | andVxVy | xorVxVy | ldVxDt => exact ⟨_, rfl, .register _ rfl rfl⟩
  | addVxVy | subVxVy | shrVx | subnVxVy | shlVx => exact ⟨_, rfl, .registerAndFlag _ _ rfl rfl⟩
  | seVxNn | sneVxNn | seVxVy | sneVxVy | skpVx | sknpVx => exact ⟨_, rfl, .skip _ rfl rfl⟩
  | ldINnn | addIVx | ldFVx => exact ⟨_, rfl, .index _ rfl rfl⟩
  | jp nnn =>
    have hnnn := nnn.isLt
    exact ⟨_, rfl, .jump _ rfl rfl (by rw [toNat_zext12]; omega)⟩
  | jpV0Nnn nnn => exact ⟨_, rfl, .jump _ rfl rfl (toNat_jumpTarget_le nnn _)⟩
  | rndVxNn x nn => exact ⟨_, rfl, .random x nn _⟩
  | cls => exact ⟨_, rfl, .clear⟩
  | ldVxK x => exact ⟨_, rfl, .awaitKey x⟩
  | ldDtVx x => exact ⟨_, rfl, .delayTimer x⟩
  | ldStVx x => exact ⟨_, rfl, .soundTimer x⟩

theorem effect_of_exec {i : Instr} {s t : State} (h : exec i s = .next t) : Effect s i t := by
  obtain ⟨t', ht', he⟩ := exec_effect i s
  rw [ht'] at h
  cases h
  exact he

/-! ### The invariant -/

/-- The invariant reads memory, `PC` and the stack alone. -/
theorem State.inv_of_pc_le {s t : State} (hmem : t.mem = s.mem) (hstack : t.stack = s.stack) (hsp : t.sp = s.sp)
    (hinv : s.Inv) (hpc : t.pc.toNat ≤ 0x10FE) : t.Inv := by
  obtain ⟨hwf, -, hslots⟩ := hinv
  simp only [State.Inv, hmem, hstack, hsp]
  exact ⟨hwf, hpc, hslots⟩

/-! ### What an instruction leaves unchanged -/

/-- A register that a write to `V[x]` changes is `V[x]` (10_state.md R20). -/
theorem State.eq_of_readV_writeV_ne {s : State} {x r : Reg} {b : Byte}
    (h : (s.writeV x b).readV r ≠ s.readV r) : r = x := by
  by_contra hne
  exact h (s.readV_writeV_other x r b hne)

namespace Effect

variable {i : Instr} {s t : State}

theorem i_eq (h : Effect s i t) (hi : writesIndex i = false) : t.i = s.i := by
  cases h with
  | index a hw => cases hw.symm.trans hi
  | skip => exact s.skipIf_i _
  | loadBlock => exact s.writeRegs_i _ _
  | _ => rfl

theorem pc_eq (h : Effect s i t) (hi : writesPc i = false) : t.pc = s.pc := by
  cases h with
  | skip c hw | jump a hw => cases hw.symm.trans hi
  | call | ret => cases hi
  | loadBlock => exact s.writeRegs_pc _ _
  | _ => rfl

theorem stack_eq (h : Effect s i t) (hi : i ≠ .ret ∧ ∀ nnn, i ≠ .call nnn) :
    t.stack = s.stack ∧ t.sp = s.sp := by
  cases h with
  | call nnn => exact absurd rfl (hi.2 nnn)
  | ret => exact absurd rfl hi.1
  | skip => exact ⟨s.skipIf_stack _, s.skipIf_sp _⟩
  | loadBlock => exact ⟨s.writeRegs_stack _ _, s.writeRegs_sp _ _⟩
  | _ => exact ⟨rfl, rfl⟩

theorem dt_eq (h : Effect s i t) (hi : ∀ x, i ≠ .ldDtVx x) : t.dt = s.dt := by
  cases h with
  | delayTimer x => exact absurd rfl (hi x)
  | skip => exact s.skipIf_dt _
  | loadBlock => exact s.writeRegs_dt _ _
  | _ => rfl

theorem st_eq (h : Effect s i t) (hi : ∀ x, i ≠ .ldStVx x) : t.st = s.st := by
  cases h with
  | soundTimer x => exact absurd rfl (hi x)
  | skip => exact s.skipIf_st _
  | loadBlock => exact s.writeRegs_st _ _
  | _ => rfl

theorem fb_eq (h : Effect s i t) (hi : i ≠ .cls ∧ ∀ x y n, i ≠ .drwVxVyN x y n) : t.fb = s.fb := by
  cases h with
  | clear => exact absurd rfl hi.1
  | draw x y n => exact absurd rfl (hi.2 x y n)
  | skip => exact s.skipIf_fb _
  | loadBlock => exact s.writeRegs_fb _ _
  | _ => rfl

theorem mem_eq (h : Effect s i t) (hi : ∀ x, i ≠ .ldBVx x ∧ i ≠ .ldMemVx x) : t.mem = s.mem := by
  cases h with
  | storeDigits x => exact absurd rfl (hi x).1
  | storeBlock x => exact absurd rfl (hi x).2
  | skip => exact s.skipIf_mem _
  | loadBlock => exact s.writeRegs_mem _ _
  | _ => rfl

theorem draws_eq (h : Effect s i t) (hi : ∀ x nn, i ≠ .rndVxNn x nn) : t.draws = s.draws := by
  cases h with
  | random x nn => exact absurd rfl (hi x nn)
  | skip => exact s.skipIf_draws _
  | loadBlock => exact s.writeRegs_draws _ _
  | _ => rfl

/-- No instruction changes the keys or the model's own fields but the draws counter. -/
theorem outside_eq (h : Effect s i t) :
    t.k = s.k ∧ t.launched = s.launched ∧ t.loadReport = s.loadReport ∧ t.schedule = s.schedule := by
  cases h with
  | skip => exact ⟨s.skipIf_k _, s.skipIf_launched _, s.skipIf_loadReport _, s.skipIf_schedule _⟩
  | loadBlock =>
    exact ⟨s.writeRegs_k _ _, s.writeRegs_launched _ _, s.writeRegs_loadReport _ _, s.writeRegs_schedule _ _⟩
  | _ => exact ⟨rfl, rfl, rfl, rfl⟩

/-- A register that differs after an instruction is one its rule names (10_state.md R20, R21). -/
theorem named_of_readV_ne {r : Reg} (h : Effect s i t) (hr : t.readV r ≠ s.readV r) :
    destination i = some r ∨ (∃ x, i = .ldVxMem x ∧ r.toNat ≤ x.toNat) ∨ (writesFlag i = true ∧ r = vf) := by
  cases h with
  | register b hd => exact .inl (State.eq_of_readV_writeV_ne hr ▸ hd)
  | random => exact .inl (congrArg some (State.eq_of_readV_writeV_ne hr).symm)
  | @registerAndFlag _ x b f hd hf =>
    by_cases hvf : r = vf
    · exact .inr (.inr ⟨hf, hvf⟩)
    · have hrx : r = x := by
        by_contra hne
        exact hr (s.readV_writeResultThenFlag_other x r b f hne hvf)
      exact .inl (hrx ▸ hd)
  | draw => exact .inr (.inr ⟨rfl, State.eq_of_readV_writeV_ne hr⟩)
  | loadBlock x bs hlen =>
    refine .inr (.inl ⟨x, rfl, ?_⟩)
    by_contra hgt
    have hx := x.isLt
    rw [s.readV_writeRegs 0 bs (by omega), dif_neg (by omega)] at hr
    exact hr rfl
  | skip => exact absurd (s.readV_skipIf _ r) hr
  | _ => exact absurd rfl hr

/-- A flag writer that raises no error leaves 0 or 1 in `VF`, written last (41_load_arith_logic.md R123). -/
theorem vf_is_flag (h : Effect s i t) (hw : writesFlag i = true) (hno : faultOf i s = none) :
    t.readV vf = 0x00 ∨ t.readV vf = 0x01 := by
  have hflag : ∃ f, t.readV vf = flagByte f := by
    cases h with
    | fault hf => cases hf.symm.trans hno
    | registerAndFlag b f => exact ⟨f, s.readV_writeResultThenFlag_vf _ b f⟩
    | draw x y n fb hit => exact ⟨hit, State.readV_writeV_same _ vf _⟩
    | register _ _ hf | skip _ _ hf | jump _ _ hf | index _ _ hf => cases hf.symm.trans hw
    | call | ret | random | clear | awaitKey | delayTimer | soundTimer | storeDigits | storeBlock | loadBlock =>
      cases hw
  obtain ⟨f, hf⟩ := hflag
  rw [hf]
  cases f with
  | false => exact .inl rfl
  | true => exact .inr rfl

/-- The invariant after an instruction whose word was fetched from memory, so that `PC` is at most 0x1000 when it
starts: a skip reaches 0x1002, a jump at most 0x10FE (10_state.md R23), and a `CALL` pushes at most 0x1000. -/
theorem keeps_inv (h : Effect s i t) (hinv : s.Inv) (hpc : s.pc.toNat ≤ 0x1000) : t.Inv := by
  have ⟨hwf, hle, hstack⟩ := hinv
  cases h with
  | skip c =>
    refine State.inv_of_pc_le (s.skipIf_mem c) (s.skipIf_stack c) (s.skipIf_sp c) hinv ?_
    rw [s.skipIf_pc c]
    split
    · bv_omega
    · exact hle
  | jump a _ _ ha => exact ⟨hwf, ha, hstack⟩
  | call nnn hroom =>
    have hnnn := nnn.isLt
    refine ⟨hwf, by rw [toNat_zext12]; omega, fun j hj => ?_⟩
    by_cases hjs : s.sp.val = j.val
    · simpa [hjs] using hpc
    · have hbelow : j.val < s.sp.val := by simp only at hj; omega
      rw [Vector.getElem_set_ne hroom j.isLt hjs]
      exact hstack j hbelow
  | ret n hn hsp =>
    have htop : s.stack[n].toNat ≤ 0x1000 := hstack ⟨n, hn⟩ (by simp only; omega)
    exact ⟨hwf, by simp only; omega, fun j hj => hstack j (by simp only at hj; omega)⟩
  | storeDigits x hend | storeBlock x hend => exact ⟨Memory.writeBlock_wf hwf _ _ hend, hle, hstack⟩
  | loadBlock x bs =>
    refine State.inv_of_pc_le (s.writeRegs_mem 0 bs) (s.writeRegs_stack 0 bs) (s.writeRegs_sp 0 bs) hinv ?_
    rw [s.writeRegs_pc]
    exact hle
  | _ => exact hinv

end Effect

/-! ### What the events from outside do -/

/-- Everything `set_key` can do: nothing, set or clear the key, or resume a key wait on a press edge
(60_exceptions.md R181, R182). -/
theorem State.setKey_cases (s : State) (code : Nat) (pressed : Bool) :
    s.setKey code pressed = s ∨ (∃ b, s.setKey code pressed = s.setKeyBit code b) ∨
    (∃ x, s.run = .awaitKey x ∧ pressed = true ∧ code ≤ 15 ∧ s.key code = false ∧
      s.setKey code pressed = { (s.setKeyBit code true).writeV x (BitVec.ofNat 8 code) with run := .ready }) := by
  unfold State.setKey
  split
  · exact .inl rfl
  split
  · split
    · exact .inl rfl
    · rename_i hcode hpressed hkey
      unfold State.resumeWait
      split
      · rename_i x hrun
        rw [State.setKeyBit_run] at hrun
        exact .inr (.inr ⟨x, hrun, hpressed, by omega, by simpa using hkey, rfl⟩)
      · exact .inr (.inl ⟨true, rfl⟩)
  · exact .inr (.inl ⟨false, rfl⟩)

/-- Everything `cancel` can do (60_exceptions.md R183). -/
theorem State.cancel_cases (s : State) :
    s.cancel = s ∨ ((s.run = .ready ∨ ∃ x, s.run = .awaitKey x) ∧ s.cancel = { s with run := .cancelled }) := by
  unfold State.cancel
  split
  · rename_i hrun; exact .inr ⟨.inl hrun, rfl⟩
  · rename_i x hrun; exact .inr ⟨.inr ⟨x, hrun⟩, rfl⟩
  · exact .inl rfl
  · exact .inl rfl

/-- Everything `load_program` can do (70_reset_and_hazards.md R202). -/
theorem State.loadProgram_cases (s : State) (image : List Byte) :
    (Config.progBase + image.length ≤ Config.memSize ∧
      s.loadProgram image = { s.storeBlock Config.progBase image with loadReport := some .ok }) ∨
    s.loadProgram image = { s with loadReport := some .programTooLarge } := by
  unfold State.loadProgram
  split
  · rename_i hfits; exact .inl ⟨of_decide_eq_true hfits, rfl⟩
  · exact .inr rfl

/-- How an event from outside moves `RUN` (10_state.md R29): not at all, or by reset, by cancel or by a press edge
in a key wait. -/
theorem hostEvent_run_cases {e : HostEvent} {s t : State} (h : hostEvent e s = .next t) :
    t.run = s.run ∨ (e = .reset ∧ t.run = .ready) ∨
    (e = .cancel ∧ (s.run = .ready ∨ ∃ x, s.run = .awaitKey x) ∧ t.run = .cancelled) ∨
    (∃ code x, e = .setKey code true ∧ s.run = .awaitKey x ∧ code ≤ 15 ∧ s.key code = false ∧ t.run = .ready) := by
  obtain ⟨-, rfl⟩ | ⟨code, pressed, rfl, rfl⟩ | ⟨rfl, rfl⟩ | ⟨rfl, rfl⟩ | ⟨image, -, -, rfl⟩ := hostEvent_cases h
  · exact .inl rfl
  · obtain hs | ⟨b, hs⟩ | ⟨x, hrun, rfl, hcode, hkey, hs⟩ := s.setKey_cases code pressed
    · exact .inl (by rw [hs])
    · exact .inl (by rw [hs, State.setKeyBit_run])
    · exact .inr (.inr (.inr ⟨code, x, rfl, hrun, hcode, hkey, by rw [hs]⟩))
  · obtain hs | ⟨hrun, hs⟩ := s.cancel_cases
    · exact .inl (by rw [hs])
    · exact .inr (.inr (.inl ⟨rfl, hrun, by rw [hs]⟩))
  · exact .inr (.inl ⟨rfl, rfl⟩)
  · obtain ⟨-, hs⟩ | hs := s.loadProgram_cases image
    · exact .inl (by rw [hs]; rfl)
    · exact .inl (by rw [hs])

theorem executorTurn_run_eq {s t : State} (hready : s.run ≠ .ready) (h : executorTurn s = .next t) :
    t.run = s.run := by
  obtain ⟨hr, -⟩ | ⟨x, -, rfl⟩ := executorTurn_cases h
  · exact absurd hr hready
  · rfl

/-- How a step moves `RUN` when no instruction step is enabled (10_state.md R29): not at all, or by one of the three
events that write it. -/
theorem step_run_cases {s t : State} (hready : s.run ≠ .ready) (h : step s = .next t) :
    t.run = s.run ∨ (∃ rest, s.schedule = .host .reset :: rest ∧ t.run = .ready) ∨
    (∃ x rest, s.run = .awaitKey x ∧ s.schedule = .host .cancel :: rest ∧ t.run = .cancelled) ∨
    (∃ x code rest, s.run = .awaitKey x ∧ s.schedule = .host (.setKey code true) :: rest ∧ code ≤ 15 ∧
      s.key code = false ∧ t.run = .ready) := by
  obtain ⟨-, hturn⟩ | ⟨rest, -, hturn⟩ | ⟨e, rest, hsched, hevent⟩ := step_cases h
  · exact .inl (executorTurn_run_eq hready hturn)
  · exact .inl (executorTurn_run_eq (s := { s with schedule := rest }) hready hturn)
  · obtain hrun | ⟨rfl, hrun⟩ | ⟨rfl, hfrom, hrun⟩ | ⟨code, x, rfl, hfrom, hcode, hkey, hrun⟩ :=
      hostEvent_run_cases hevent
    · exact .inl hrun
    · exact .inr (.inl ⟨rest, hsched, hrun⟩)
    · obtain hr | ⟨x, hfrom⟩ := hfrom
      · exact absurd hr hready
      · exact .inr (.inr (.inl ⟨x, rest, hfrom, hsched, hrun⟩))
    · exact .inr (.inr (.inr ⟨x, code, rest, hfrom, hsched, hcode, hkey, hrun⟩))

/-- In an ended run no instruction step is enabled and no key is awaited (10_state.md R29). -/
theorem State.run_ne_of_ended {s : State} (h : s.IsFaulted ∨ s.IsCancelled) :
    s.run ≠ .ready ∧ ∀ x, s.run ≠ .awaitKey x := by
  obtain ⟨kind, hrun⟩ | hrun := h
  · rw [hrun]
    exact ⟨nofun, nofun⟩
  · rw [State.IsCancelled] at hrun
    rw [hrun]
    exact ⟨nofun, nofun⟩

/-! ### Every step keeps the invariant -/

theorem State.inv_reset : State.reset.Inv :=
  ⟨Memory.reset_wf, by decide, fun j hj => absurd hj (Nat.not_lt_zero j.val)⟩

theorem hostEvent_keeps_inv {e : HostEvent} {s t : State} (hinv : s.Inv) (h : hostEvent e s = .next t) :
    t.Inv := by
  have ⟨hwf, hle, hstack⟩ := hinv
  have hkey (code : Nat) (b : Bool) : (s.setKeyBit code b).Inv :=
    State.inv_of_pc_le (s.setKeyBit_mem code b) (s.setKeyBit_stack code b) (s.setKeyBit_sp code b) hinv
      (by rw [s.setKeyBit_pc]; exact hle)
  obtain ⟨-, rfl⟩ | ⟨code, pressed, -, rfl⟩ | ⟨-, rfl⟩ | ⟨-, rfl⟩ | ⟨image, -, -, rfl⟩ := hostEvent_cases h
  · exact hinv
  · obtain hs | ⟨b, hs⟩ | ⟨x, -, -, -, -, hs⟩ := s.setKey_cases code pressed <;> rw [hs]
    · exact hinv
    · exact hkey code b
    · exact hkey code true
  · obtain hs | ⟨-, hs⟩ := s.cancel_cases <;> rw [hs] <;> exact hinv
  · exact State.inv_reset
  · obtain ⟨hfits, hs⟩ | hs := s.loadProgram_cases image <;> rw [hs]
    · exact ⟨Memory.writeBlock_wf hwf _ _ hfits, hle, hstack⟩
    · exact hinv

/-- A word can be fetched below 0x0FFF only, so `PC` is at most 0x1000 when the instruction starts. -/
theorem State.afterFetch_pc_le {s : State} {w : Word} (h : s.memRead2 s.pc.toNat = some w) :
    s.afterFetch.pc.toNat ≤ 0x1000 := by
  have hpc : s.pc.toNat + 1 < Config.memSize := by
    by_contra hge
    rw [s.memRead2_of_ge (Nat.le_of_not_lt hge)] at h
    cases h
  simp only [Config.memSize] at hpc
  rw [State.afterFetch_pc]
  bv_omega

theorem instructionStep_keeps_inv {s t : State} (hinv : s.Inv) (h : instructionStep s = .next t) : t.Inv := by
  have ⟨hwf, hle, hstack⟩ := hinv
  obtain ⟨-, hi⟩ | ⟨w, hfetch, -, hi⟩ | ⟨w, i, hfetch, -, hi⟩ := instructionStep_cases s
  · cases hi.symm.trans h
    exact hinv
  · have hpc := State.afterFetch_pc_le hfetch
    cases hi.symm.trans h
    exact ⟨hwf, by rw [takeFault_pc]; omega, hstack⟩
  · have hpc := State.afterFetch_pc_le hfetch
    exact (effect_of_exec (hi.symm.trans h)).keeps_inv ⟨hwf, by omega, hstack⟩ hpc

theorem executorTurn_keeps_inv {s t : State} (hinv : s.Inv) (h : executorTurn s = .next t) : t.Inv := by
  obtain ⟨-, hi⟩ | ⟨-, -, rfl⟩ := executorTurn_cases h
  · exact instructionStep_keeps_inv hinv hi
  · exact hinv

/-! ### The obligations -/

/-- Settles O9: the mover is the Executor or an event, and each keeps the invariant. -/
theorem stepKeepsInvariant : Obligations.StepKeepsInvariant := by
  intro s t hinv h
  obtain ⟨-, hturn⟩ | ⟨rest, -, hturn⟩ | ⟨e, rest, -, hevent⟩ := step_cases h
  · exact executorTurn_keeps_inv hinv hturn
  · exact executorTurn_keeps_inv (s := { s with schedule := rest }) hinv hturn
  · exact hostEvent_keeps_inv (s := { s with schedule := rest }) hinv hevent

/-- Settles O16: `CALL` pushes the address after it into the slot that `RET` pops. -/
theorem callThenReturn : Obligations.CallThenReturn := by
  intro s u nnn hroom
  refine ⟨_, exec_call_of_lt s nnn hroom, fun hstack hsp => ?_⟩
  refine ⟨_, exec_ret_of_succ u hroom (congrArg Fin.val hsp), ?_, rfl, fun j hj hjs => ?_⟩
  · simp only [hstack, Vector.getElem_set_self]
  · simp only [hstack]
    exact Vector.getElem_set_ne hroom hj (by omega)

/-- Settles O20: only reset moves `RUN` when neither an instruction step nor a key wait is under way. -/
theorem onlyResetLeavesEndedRun : Obligations.OnlyResetLeavesEndedRun := by
  intro s t hended h
  obtain ⟨hready, hwait⟩ := State.run_ne_of_ended hended
  obtain hrun | ⟨rest, hsched, -⟩ | ⟨x, -, hrun, -⟩ | ⟨x, -, -, hrun, -⟩ := step_run_cases hready h
  · exact .inl hrun
  · exact .inr ⟨rest, hsched⟩
  · exact absurd hrun (hwait x)
  · exact absurd hrun (hwait x)

/-- Settles O24: the four ways `RUN` can move when no instruction step is enabled. -/
theorem keyWaitEndsOnlyByEvent : Obligations.KeyWaitEndsOnlyByEvent := by
  intro s t x hwait h
  have hready : s.run ≠ .ready := by rw [hwait]; nofun
  obtain hrun | hreset | ⟨-, rest, -, hcancel⟩ | ⟨-, code, rest, -, hpress⟩ := step_run_cases hready h
  · exact .inl (hrun.trans hwait)
  · exact .inr (.inr (.inr hreset))
  · exact .inr (.inr (.inl ⟨rest, hcancel⟩))
  · exact .inr (.inl ⟨code, rest, hpress⟩)

/-- Settles O30, from the effect of each instruction on the registers. -/
theorem onlyNamedRegistersChange : Obligations.OnlyNamedRegistersChange := by
  intro i s t r h hr
  exact (effect_of_exec h).named_of_readV_ne hr

/-- Settles O31: a flag writer writes its flag last, and a register that another instruction changes is in its
destination's block (O30). -/
theorem onlyFlagWritersWriteVF : Obligations.OnlyFlagWritersWriteVF := by
  intro i s t h
  refine ⟨(effect_of_exec h).vf_is_flag, fun hflag hdest => ?_⟩
  by_contra hne
  obtain hd | ⟨x, rfl, hx⟩ | ⟨hw, -⟩ := onlyNamedRegistersChange i s t 15 h hne
  · exact hdest hd
  · have hx15 : x = 15 := by bv_omega
    exact hdest (congrArg some hx15)
  · cases hflag.symm.trans hw

/-- Settles O32, one frame lemma of `Effect` for each piece. -/
theorem onlyNamedInstructionsWrite : Obligations.OnlyNamedInstructionsWrite := by
  intro i s t h
  have he := effect_of_exec h
  exact ⟨he.i_eq, he.pc_eq, he.stack_eq, he.dt_eq, he.st_eq, he.fb_eq, he.mem_eq, he.draws_eq, he.outside_eq⟩

/-- Settles O7, from the values of `State.reset` and the reset contents of memory. -/
theorem resetStateValues : Obligations.ResetStateValues := by
  refine ⟨State.readV_reset, rfl, rfl, rfl, rfl, rfl, Framebuffer.pixel_clear, State.key_reset, rfl, ?_, ?_⟩
  · exact fun a ha => Memory.background_outside_font ha
  · decide

/-- Settles O8. -/
theorem resetMeetsInvariant : Obligations.ResetMeetsInvariant := State.inv_reset

/-- Settles O19, by the Executor's turn in each value of `RUN`. -/
theorem noInstructionStepUnlessReady : Obligations.NoInstructionStepUnlessReady := by
  intro s rest hnext
  rw [step_of_executorMovesNext hnext]
  refine ⟨fun x hrun => ?_, fun kind hrun => ?_, fun hrun => ?_⟩ <;> simp only [executorTurn, hrun]

end Sys2Proof.Machine

/-! ## Memory rules: canonical memories, and a store seen by the next fetch (20_memory.md R56, R62) -/

namespace Sys2Proof.Machine

/-! ### The canonical form, cell by cell -/

theorem Memory.wfFrom_cons {lo a : Nat} {u : Byte} {m : Memory} :
    Memory.wfFrom lo ((a, u) :: m) = true ↔
      lo ≤ a ∧ a < Config.memSize ∧ u ≠ Memory.background a ∧ m.wfFrom (a + 1) = true := by
  simp [Memory.wfFrom, and_assoc]

theorem Memory.read_cons_same (a : Nat) (u : Byte) (m : Memory) : Memory.read ((a, u) :: m) a = u :=
  if_pos rfl

theorem Memory.read_cons_other {a c : Nat} (u : Byte) (m : Memory) (h : c ≠ a) :
    Memory.read ((a, u) :: m) c = m.read c :=
  if_neg h

/-- The first cell of a memory is a difference from the reset contents, so a memory that reads the same there
does not begin above it. -/
theorem Memory.le_head_of_read_eq {lo lo' a : Nat} {u : Byte} {m m' : Memory}
    (h : Memory.wfFrom lo ((a, u) :: m) = true) (h' : m'.wfFrom lo' = true)
    (hread : Memory.read ((a, u) :: m) a = m'.read a) : lo' ≤ a := by
  obtain ⟨-, -, hu, -⟩ := Memory.wfFrom_cons.mp h
  by_contra hlt
  rw [Memory.read_cons_same, Memory.read_below h' (Nat.lt_of_not_le hlt)] at hread
  exact hu hread

/-- A memory that begins with a cell does not read as the reset contents everywhere. -/
theorem Memory.not_read_cons_eq_nil {lo : Nat} {c : Host.Cell} {m : Memory} (h : Memory.wfFrom lo (c :: m) = true) :
    ¬ ∀ a, Memory.read (c :: m) a = Memory.read [] a := by
  intro hread
  have hle : c.1 + 1 ≤ c.1 := Memory.le_head_of_read_eq h rfl (hread c.1)
  omega

/-- Two memories in canonical form that read the same have the same first cell, and their tails, which both read
as the reset contents up to that cell, read the same again. -/
theorem Memory.eq_of_read_eq {lo : Nat} {m m' : Memory} (h : m.wfFrom lo = true) (h' : m'.wfFrom lo = true)
    (hread : ∀ a, m.read a = m'.read a) : m = m' := by
  induction m generalizing lo m' with
  | nil =>
    cases m' with
    | nil => rfl
    | cons c' m' => exact absurd (fun a => (hread a).symm) (Memory.not_read_cons_eq_nil h')
  | cons c m ih =>
    cases m' with
    | nil => exact absurd hread (Memory.not_read_cons_eq_nil h)
    | cons c' m' =>
      obtain ⟨a, u⟩ := c
      obtain ⟨b, w⟩ := c'
      obtain ⟨-, ha, hu, hm⟩ := Memory.wfFrom_cons.mp h
      obtain ⟨-, hb, hw, hm'⟩ := Memory.wfFrom_cons.mp h'
      have hba : b ≤ a := Memory.le_head_of_read_eq h (Memory.wfFrom_cons.mpr ⟨le_rfl, hb, hw, hm'⟩) (hread a)
      have hab : a ≤ b :=
        Memory.le_head_of_read_eq h' (Memory.wfFrom_cons.mpr ⟨le_rfl, ha, hu, hm⟩) (hread b).symm
      obtain rfl : a = b := Nat.le_antisymm hab hba
      have hbyte : u = w := by simpa only [Memory.read_cons_same] using hread a
      have htail : ∀ d, Memory.read m d = Memory.read m' d := by
        intro d
        by_cases hd : d = a
        · rw [Memory.read_below hm (by omega), Memory.read_below hm' (by omega)]
        · simpa only [Memory.read_cons_other _ _ hd] using hread d
      rw [hbyte, ih hm hm' htail]

/-! ### The block that `LD [I], Vx` stores -/

theorem exec_ldMemVx_of_lt (s : State) (x : Reg) (h : s.i.toNat + x.toNat < 4096) :
    exec (.ldMemVx x) s = .next (s.storeBlock (s.indexAddr 0) (s.regBlock x)) := by
  have hend : s.indexAddr 0 + (s.regBlock x).length ≤ 4096 := by
    rw [State.length_regBlock, State.indexAddr]
    omega
  simp only [exec, execLdMemVx, s.storeBytes_eq, if_pos (Or.inr hend)]

/-- After the store of `V[0] .. V[x]` at `I`, the byte at `I + k` is `V[k]` (42_index_memory.md R134). -/
theorem State.read_storeBlock_regBlock {s : State} (hwf : s.mem.wf = true) {x r : Reg} (hr : r.toNat ≤ x.toNat)
    (h : s.i.toNat + x.toNat < 4096) :
    (s.storeBlock (s.indexAddr 0) (s.regBlock x)).mem.read (s.indexAddr r.toNat) = s.readV r := by
  have hend : s.indexAddr 0 + (s.regBlock x).length ≤ Config.memSize := by
    rw [State.length_regBlock, State.indexAddr, Config.memSize]
    omega
  have hread := Memory.read_writeBlock_inside hwf (s.indexAddr 0) (s.regBlock x) hend r.toNat
    (by rw [State.length_regBlock]; omega)
  rw [State.getElem_regBlock s x r.toNat (by omega), BitVec.ofNat_toNat, BitVec.setWidth_eq] at hread
  exact hread

/-! ### The obligations -/

/-- Settles O14, by comparing the two lists cell by cell (`Memory.eq_of_read_eq`). -/
theorem canonicalMemoriesEqual : Obligations.CanonicalMemoriesEqual := by
  intro m m' h h' hread
  exact Memory.eq_of_read_eq h h' hread

/-- Settles O27: the fetch reads the two bytes at `I`, which are the first two of the stored block. -/
theorem storeSeenByFetch : Obligations.StoreSeenByFetch := by
  intro s x hwf hx hend
  have hfirst := State.read_storeBlock_regBlock hwf (r := 0) (Nat.zero_le x.toNat) hend
  have hsecond := State.read_storeBlock_regBlock hwf (r := 1) hx hend
  refine ⟨_, _, exec_ldMemVx_of_lt s x hend, State.memRead2_of_lt _ ?_, ?_⟩
  · rw [Config.memSize]
    omega
  · rw [toNat_wordOfBytes, ← hfirst, ← hsecond]
    rfl

end Sys2Proof.Machine

/-! ## Encoding rules: the fields, the decoder and the encoder (30_encoding.md) -/

namespace Sys2Proof

/-! ### The fields by the source's masks and shifts (R71) -/

theorem setWidth_fieldOp_shiftLeft (w : Word) : (fieldOp w).setWidth 16 <<< 12 = w &&& 0xF000#16 := by
  apply BitVec.eq_of_getLsbD_eq
  intro i hi
  interval_cases i <;> simp [fieldOp]

theorem setWidth_fieldX (w : Word) : (fieldX w).setWidth 16 = (w &&& 0x0F00#16) >>> 8 := by
  apply BitVec.eq_of_getLsbD_eq
  intro i hi
  interval_cases i <;> simp [fieldX]

theorem setWidth_fieldY (w : Word) : (fieldY w).setWidth 16 = (w &&& 0x00F0#16) >>> 4 := by
  apply BitVec.eq_of_getLsbD_eq
  intro i hi
  interval_cases i <;> simp [fieldY]

theorem setWidth_fieldN (w : Word) : (fieldN w).setWidth 16 = w &&& 0x000F#16 := by
  apply BitVec.eq_of_getLsbD_eq
  intro i hi
  interval_cases i <;> simp [fieldN]

theorem setWidth_fieldNn (w : Word) : (fieldNn w).setWidth 16 = w &&& 0x00FF#16 := by
  apply BitVec.eq_of_getLsbD_eq
  intro i hi
  interval_cases i <;> simp [fieldNn]

theorem setWidth_fieldNnn (w : Word) : (fieldNnn w).setWidth 16 = w &&& 0x0FFF#16 := by
  apply BitVec.eq_of_getLsbD_eq
  intro i hi
  interval_cases i <;> simp [fieldNnn]

theorem toNat_fieldNn (w : Word) : (fieldNn w).toNat = (fieldY w).toNat * 16 + (fieldN w).toNat := by
  simp only [fieldNn, fieldY, fieldN, BitVec.extractLsb'_toNat, Nat.shiftRight_eq_div_pow]
  omega

theorem toNat_fieldNnn (w : Word) : (fieldNnn w).toNat = (fieldX w).toNat * 256 + (fieldNn w).toNat := by
  simp only [fieldNnn, fieldX, fieldNn, BitVec.extractLsb'_toNat, Nat.shiftRight_eq_div_pow]
  omega

/-! ### A word is assembled from its fields (R72) -/

theorem formNnn_of_fields {w : Word} {op : Nibble} (hop : fieldOp w = op) : formNnn op (fieldNnn w) = w := by
  subst hop
  apply BitVec.eq_of_getLsbD_eq
  intro i hi
  interval_cases i <;> simp only [fieldOp, fieldNnn, BitVec.getLsbD_extractLsb', getLsbD_formNnn] <;> simp

theorem formXnn_of_fields {w : Word} {op : Nibble} {nn : Byte} (hop : fieldOp w = op) (hnn : fieldNn w = nn) :
    formXnn op (fieldX w) nn = w := by
  subst hop hnn
  apply BitVec.eq_of_getLsbD_eq
  intro i hi
  interval_cases i <;> simp only [fieldOp, fieldX, fieldNn, BitVec.getLsbD_extractLsb', getLsbD_formXnn] <;> simp

theorem formXyn_of_fields {w : Word} {op n : Nibble} (hop : fieldOp w = op) (hn : fieldN w = n) :
    formXyn op (fieldX w) (fieldY w) n = w := by
  subst hop hn
  apply BitVec.eq_of_getLsbD_eq
  intro i hi
  interval_cases i <;>
    simp only [fieldOp, fieldX, fieldY, fieldN, BitVec.getLsbD_extractLsb', getLsbD_formXyn] <;> simp

theorem formXnn_inj {op op' : Nibble} {x x' : Reg} {nn nn' : Byte} :
    formXnn op x nn = formXnn op' x' nn' ↔ op = op' ∧ x = x' ∧ nn = nn' := by
  constructor
  · intro h
    exact ⟨by simpa using congrArg fieldOp h, by simpa using congrArg fieldX h, by simpa using congrArg fieldNn h⟩
  · rintro ⟨rfl, rfl, rfl⟩
    rfl

theorem fieldN_formXnn (op : Nibble) (x : Reg) (nn : Byte) : fieldN (formXnn op x nn) = nn.setWidth 4 := by
  apply BitVec.eq_of_getLsbD_eq
  intro i hi
  interval_cases i <;> simp only [fieldN, BitVec.getLsbD_extractLsb', getLsbD_formXnn] <;> simp

/-! ### The masks on the fields of a word -/

/-- Clearing the low nibble (R80). -/
theorem formXyn_and_clear_n (op : Nibble) (x y : Reg) (n : Nibble) :
    formXyn op x y n &&& 0xFFF0#16 = formXyn op x y 0 := by
  apply BitVec.eq_of_getLsbD_eq
  intro i hi
  interval_cases i <;> simp only [BitVec.getLsbD_and, getLsbD_formXyn] <;> simp

/-- Clearing the field `y` (R81). -/
theorem formXyn_and_clear_y (op : Nibble) (x y : Reg) (n : Nibble) :
    formXyn op x y n &&& 0xFF0F#16 = formXyn op x 0 n := by
  apply BitVec.eq_of_getLsbD_eq
  intro i hi
  interval_cases i <;> simp only [BitVec.getLsbD_and, getLsbD_formXyn] <;> simp

theorem formXyn_clear_n_of_fields {w : Word} {op : Nibble} (hop : fieldOp w = op) :
    formXyn op (fieldX w) (fieldY w) 0 = w &&& 0xFFF0#16 := by
  rw [← formXyn_and_clear_n op _ _ (fieldN w), formXyn_of_fields hop rfl]

theorem formXyn_clear_y_of_fields {w : Word} {op n : Nibble} (hop : fieldOp w = op) (hn : fieldN w = n) :
    formXyn op (fieldX w) 0 n = w &&& 0xFF0F#16 := by
  rw [← formXyn_and_clear_y op _ (fieldY w), formXyn_of_fields hop hn]

theorem fieldOp_and_clear_n (w : Word) : fieldOp (w &&& 0xFFF0#16) = fieldOp w := by
  rw [← formXyn_clear_n_of_fields rfl, fieldOp_formXyn]

theorem fields_and_clear_y (w : Word) :
    fieldOp (w &&& 0xFF0F#16) = fieldOp w ∧ fieldN (w &&& 0xFF0F#16) = fieldN w := by
  rw [← formXyn_clear_y_of_fields rfl rfl, fieldOp_formXyn, fieldN_formXyn]
  exact ⟨rfl, rfl⟩

theorem fieldOp_of_and_op {w v : Word} (h : w &&& 0xF000#16 = v) : fieldOp w = fieldOp v := by
  rw [← h, ← formNnn_of_fields (w := w) rfl, formNnn_and_op, fieldOp_formNnn, fieldOp_formNnn]

theorem fields_of_and_op_n {w v : Word} (h : w &&& 0xF00F#16 = v) :
    fieldOp w = fieldOp v ∧ fieldN w = fieldN v := by
  rw [← h, ← formXyn_of_fields (w := w) rfl rfl, formXyn_and_op_n]
  simp

theorem fields_of_and_op_nn {w v : Word} (h : w &&& 0xF0FF#16 = v) :
    fieldOp w = fieldOp v ∧ fieldNn w = fieldNn v := by
  rw [← h, ← formXnn_of_fields (w := w) rfl rfl, formXnn_and_op_nn]
  simp

/-! ### Decode of encode -/

theorem decodeWord_encode (i : Instr) : decodeWord (encode i) = some i := by
  cases i with
  | cls | ret => rfl
  | jp | call | ldINnn | jpV0Nnn => simp [encode, decodeWord]
  | seVxNn | sneVxNn | ldVxNn | addVxNn | rndVxNn => simp [encode, decodeWord]
  | seVxVy | sneVxVy | drwVxVyN => simp [encode, decodeWord]
  | ldVxVy | orVxVy | andVxVy | xorVxVy | addVxVy | subVxVy | shrVx | subnVxVy | shlVx =>
    simp [encode, decodeWord, decodeFamily8]
  | skpVx | sknpVx => simp [encode, decodeWord, decodeFamilyE]
  | ldVxDt | ldVxK | ldDtVx | ldStVx | addIVx | ldFVx | ldBVx | ldMemVx | ldVxMem =>
    simp [encode, decodeWord, decodeFamilyF]

theorem decodeBytes_bytesOfWord_append {w : Word} {i : Instr} (h : decodeWord w = some i) (rest : List Byte) :
    decodeBytes (bytesOfWord w ++ rest) = .instr i rest := by
  simp only [bytesOfWord, List.cons_append, List.nil_append, decodeBytes, wordOfBytes_bytesOfWord, h]

theorem decodeWord_of_decodeBytes {hi lo : Byte} {rest rest' : List Byte} {i : Instr}
    (h : decodeBytes (hi :: lo :: rest) = .instr i rest') : decodeWord (wordOfBytes hi lo) = some i := by
  simp only [decodeBytes] at h
  split at h
  next hd =>
    cases h
    exact hd
  next => cases h

/-! ### The inversion of the decoder

An instruction that a word decodes to is encoded as the word on the bits that its row gives a meaning. -/

/-- The bits of an instruction's word that R80 and R81 do not call ignored. -/
def Instr.keptBits : Instr → Word
  | .seVxVy _ _ | .sneVxVy _ _ => 0xFFF0#16
  | .shrVx _ | .shlVx _ => 0xFF0F#16
  | _ => 0xFFFF#16

theorem eq_and_allBits {v w : Word} (h : v = w) : v = w &&& 0xFFFF#16 :=
  h.trans BitVec.and_allOnes.symm

theorem encode_of_decodeFamily0 {w : Word} {i : Instr} (h : decodeFamily0 w = some i) :
    encode i = w &&& i.keptBits := by
  unfold decodeFamily0 at h
  split_ifs at h <;> subst w <;> cases h <;> rfl

theorem encode_of_decodeFamily8 {w : Word} {i : Instr} (hop : fieldOp w = 0x8) (h : decodeFamily8 w = some i) :
    encode i = w &&& i.keptBits := by
  unfold decodeFamily8 at h
  split at h <;> rename_i hn <;> cases h
  case h_7 | h_9 => exact formXyn_clear_y_of_fields hop hn
  all_goals exact eq_and_allBits (formXyn_of_fields hop hn)

theorem encode_of_decodeFamilyE {w : Word} {i : Instr} (hop : fieldOp w = 0xE) (h : decodeFamilyE w = some i) :
    encode i = w &&& i.keptBits := by
  unfold decodeFamilyE at h
  split at h <;> rename_i hnn <;> cases h <;> exact eq_and_allBits (formXnn_of_fields hop hnn)

theorem encode_of_decodeFamilyF {w : Word} {i : Instr} (hop : fieldOp w = 0xF) (h : decodeFamilyF w = some i) :
    encode i = w &&& i.keptBits := by
  unfold decodeFamilyF at h
  split at h <;> rename_i hnn <;> cases h <;> exact eq_and_allBits (formXnn_of_fields hop hnn)

/-- Everything the dispatch on the top nibble can do (R75): one of the four families with a further selector, or an
instruction whatever the other bits are. -/
theorem decodeWord_cases (w : Word) :
    (fieldOp w = 0x0#4 ∧ decodeWord w = decodeFamily0 w) ∨ (fieldOp w = 0x8#4 ∧ decodeWord w = decodeFamily8 w) ∨
    (fieldOp w = 0xE#4 ∧ decodeWord w = decodeFamilyE w) ∨ (fieldOp w = 0xF#4 ∧ decodeWord w = decodeFamilyF w) ∨
    (fieldOp w ∉ [0x0#4, 0x8#4, 0xE#4, 0xF#4] ∧ ∃ i, decodeWord w = some i ∧ encode i = w &&& i.keptBits) := by
  unfold decodeWord
  split
  case h_1 hop => exact .inl ⟨hop, rfl⟩
  case h_9 hop => exact .inr (.inl ⟨hop, rfl⟩)
  case h_15 hop => exact .inr (.inr (.inl ⟨hop, rfl⟩))
  case h_16 =>
    refine .inr (.inr (.inr (.inl ⟨?_, rfl⟩)))
    generalize fieldOp w = op at *
    revert op
    decide
  all_goals
    rename_i hop
    refine .inr (.inr (.inr (.inr ⟨by simp [hop], _, rfl, ?_⟩)))
  case h_2 | h_3 | h_11 | h_12 => exact eq_and_allBits (formNnn_of_fields hop)
  case h_4 | h_5 | h_7 | h_8 | h_13 => exact eq_and_allBits (formXnn_of_fields hop rfl)
  case h_6 | h_10 => exact formXyn_clear_n_of_fields hop
  case h_14 => exact eq_and_allBits (formXyn_of_fields hop rfl)

theorem encode_eq_and_keptBits {w : Word} {i : Instr} (h : decodeWord w = some i) :
    encode i = w &&& i.keptBits := by
  obtain ⟨-, hdec⟩ | ⟨hop, hdec⟩ | ⟨hop, hdec⟩ | ⟨hop, hdec⟩ | ⟨-, j, hdec, hj⟩ := decodeWord_cases w
  · exact encode_of_decodeFamily0 (hdec.symm.trans h)
  · exact encode_of_decodeFamily8 hop (hdec.symm.trans h)
  · exact encode_of_decodeFamilyE hop (hdec.symm.trans h)
  · exact encode_of_decodeFamilyF hop (hdec.symm.trans h)
  · obtain rfl : j = i := Option.some.inj (hdec.symm.trans h)
    exact hj

/-! ### The ignored bits cleared (R80, R81) -/

theorem canonicalWord_of_op {w : Word} (hop : fieldOp w = 0x5 ∨ fieldOp w = 0x9) :
    canonicalWord w = w &&& 0xFFF0 :=
  if_pos hop

theorem canonicalWord_of_shift {w : Word} (hop : fieldOp w = 0x8) (hn : fieldN w = 0x6 ∨ fieldN w = 0xE) :
    canonicalWord w = w &&& 0xFF0F := by
  rw [canonicalWord, if_neg (by simp [hop]), if_pos ⟨hop, hn⟩]

/-- The encoder emits the ignored bits as 0. -/
theorem canonicalWord_encode (i : Instr) : canonicalWord (encode i) = encode i := by
  cases i with
  | cls | ret => rfl
  | _ => simp [canonicalWord, encode, formXyn_and_clear_n, formXyn_and_clear_y]

/-- For an instruction with ignored bits, the fields that make `canonicalWord` clear them are those of its code;
for every other instruction the word is its code. -/
theorem canonicalWord_eq_and_keptBits {w : Word} {i : Instr} (h : decodeWord w = some i) :
    canonicalWord w = w &&& i.keptBits := by
  have henc := encode_eq_and_keptBits h
  cases i with
  | seVxVy x y | sneVxVy x y =>
    have hop := fieldOp_and_clear_n w
    replace henc : encode _ = w &&& 0xFFF0#16 := henc
    rw [← henc] at hop
    exact canonicalWord_of_op (by simp [← hop, encode])
  | shrVx x | shlVx x =>
    obtain ⟨hop, hn⟩ := fields_and_clear_y w
    replace henc : encode _ = w &&& 0xFF0F#16 := henc
    rw [← henc] at hop hn
    exact canonicalWord_of_shift (by simp [← hop, encode]) (by simp [← hn, encode])
  | _ =>
    obtain rfl := henc.trans BitVec.and_allOnes
    exact eq_and_allBits (canonicalWord_encode _)

/-! ### The opcode table (R87) -/

/-- The constructors of `Instr` stand in the order of the table (R85). -/
theorem row_mem_opcodeTable (i : Instr) : i.row ∈ opcodeTable := by
  have hget : opcodeTable[i.ctorIdx]? = some i.row := by cases i <;> rfl
  exact List.mem_of_getElem? hget

/-- No row looks at an ignored bit. -/
theorem keptBits_and_mask (i : Instr) : i.keptBits &&& i.row.mask = i.row.mask := by
  cases i with
  | seVxVy | sneVxVy => exact (by decide : 0xFFF0#16 &&& 0xF000#16 = 0xF000#16)
  | shrVx | shlVx => exact (by decide : 0xFF0F#16 &&& 0xF00F#16 = 0xF00F#16)
  | _ => exact BitVec.allOnes_and

open Laws.InRow in
theorem row_covers_encode (i : Instr) : i.row.covers (encode i) = true := by
  cases i
  exacts [cls, ret, jp _, call _, seVxNn _ _, sneVxNn _ _, seVxVy _ _, ldVxNn _ _, addVxNn _ _, ldVxVy _ _,
    orVxVy _ _, andVxVy _ _, xorVxVy _ _, addVxVy _ _, subVxVy _ _, shrVx _, subnVxVy _ _, shlVx _, sneVxVy _ _,
    ldINnn _, jpV0Nnn _, rndVxNn _ _, drwVxVyN _ _ _, skpVx _, sknpVx _, ldVxDt _, ldVxK _, ldDtVx _, ldStVx _,
    addIVx _, ldFVx _, ldBVx _, ldMemVx _, ldVxMem _]

theorem row_covers_of_decodeWord {w : Word} {i : Instr} (h : decodeWord w = some i) : i.row.covers w = true := by
  have hrow := row_covers_encode i
  rwa [Row.covers, encode_eq_and_keptBits h, BitVec.and_assoc, keptBits_and_mask] at hrow

/-- The mask of a row fixes the fields that the decoder selects by: the whole word, `op`, `op` with `n`, or `op`
with `nn`. -/
theorem decodeWord_of_row_covers {w : Word} (i : Instr) (h : i.row.covers w = true) :
    ∃ j, decodeWord w = some j ∧ j.row = i.row := by
  cases i <;> simp only [Row.covers, Instr.row, beq_iff_eq] at h
  case cls | ret =>
    obtain rfl : w = _ := BitVec.and_allOnes.symm.trans h
    exact ⟨_, rfl, rfl⟩
  case jp | call | seVxNn | sneVxNn | seVxVy | ldVxNn | addVxNn | sneVxVy | ldINnn | jpV0Nnn | rndVxNn | drwVxVyN =>
    rw [decodeWord, fieldOp_of_and_op h]
    exact ⟨_, rfl, rfl⟩
  case ldVxVy | orVxVy | andVxVy | xorVxVy | addVxVy | subVxVy | shrVx | subnVxVy | shlVx =>
    obtain ⟨hop, hn⟩ := fields_of_and_op_n h
    rw [decodeWord, hop, decodeFamily8, hn]
    exact ⟨_, rfl, rfl⟩
  case skpVx | sknpVx =>
    obtain ⟨hop, hnn⟩ := fields_of_and_op_nn h
    rw [decodeWord, hop, decodeFamilyE, hnn]
    exact ⟨_, rfl, rfl⟩
  case ldVxDt | ldVxK | ldDtVx | ldStVx | addIVx | ldFVx | ldBVx | ldMemVx | ldVxMem =>
    obtain ⟨hop, hnn⟩ := fields_of_and_op_nn h
    rw [decodeWord, hop, decodeFamilyF, hnn]
    exact ⟨_, rfl, rfl⟩

/-! ### The Unknown words (R76 to R79, R82) -/

theorem decodeFamily0_eq_none_iff {w : Word} : decodeFamily0 w = none ↔ w ∉ [0x00E0#16, 0x00EE#16] := by
  unfold decodeFamily0
  split_ifs <;> simp_all

theorem decodeFamily8_eq_none_iff {w : Word} :
    decodeFamily8 w = none ↔ fieldN w ∉ [0x0#4, 0x1#4, 0x2#4, 0x3#4, 0x4#4, 0x5#4, 0x6#4, 0x7#4, 0xE#4] := by
  unfold decodeFamily8
  split <;> simp_all

theorem decodeFamilyE_eq_none_iff {w : Word} : decodeFamilyE w = none ↔ fieldNn w ∉ [0x9E#8, 0xA1#8] := by
  unfold decodeFamilyE
  split <;> simp_all

theorem decodeFamilyF_eq_none_iff {w : Word} :
    decodeFamilyF w = none ↔
      fieldNn w ∉ [0x07#8, 0x0A#8, 0x15#8, 0x18#8, 0x1E#8, 0x29#8, 0x33#8, 0x55#8, 0x65#8] := by
  unfold decodeFamilyF
  split <;> simp_all

/-- The word with the fields `op`, `x` and `nn` is Unknown (`isNone_decodeWord_formXnn`). -/
def isUnknown (op : Nibble) (x : Reg) (nn : Byte) : Bool :=
  match op with
  | 0x0#4 => decide (x ≠ 0x0#4 ∨ nn ∉ [0xE0#8, 0xEE#8])
  | 0x8#4 => decide (nn.setWidth 4 ∉ [0x0#4, 0x1#4, 0x2#4, 0x3#4, 0x4#4, 0x5#4, 0x6#4, 0x7#4, 0xE#4])
  | 0xE#4 => decide (nn ∉ [0x9E#8, 0xA1#8])
  | 0xF#4 => decide (nn ∉ [0x07#8, 0x0A#8, 0x15#8, 0x18#8, 0x1E#8, 0x29#8, 0x33#8, 0x55#8, 0x65#8])
  | _ => false

theorem isNone_decodeWord_formXnn (op : Nibble) (x : Reg) (nn : Byte) :
    (decodeWord (formXnn op x nn)).isNone = isUnknown op x nn := by
  rw [Bool.eq_iff_iff, Option.isNone_iff_eq_none]
  obtain ⟨hop, hdec⟩ | ⟨hop, hdec⟩ | ⟨hop, hdec⟩ | ⟨hop, hdec⟩ | ⟨hop, i, hdec, -⟩ :=
      decodeWord_cases (formXnn op x nn) <;>
    rw [fieldOp_formXnn] at hop <;> rw [hdec]
  · subst hop
    rw [decodeFamily0_eq_none_iff, show 0x00E0#16 = formXnn 0 0 0xE0 by decide,
      show 0x00EE#16 = formXnn 0 0 0xEE by decide]
    by_cases hx : x = 0x0#4 <;> simp [formXnn_inj, isUnknown, hx]
  · subst hop
    rw [decodeFamily8_eq_none_iff, fieldN_formXnn]
    exact decide_eq_true_iff.symm
  · subst hop
    rw [decodeFamilyE_eq_none_iff, fieldNn_formXnn]
    exact decide_eq_true_iff.symm
  · subst hop
    rw [decodeFamilyF_eq_none_iff, fieldNn_formXnn]
    exact decide_eq_true_iff.symm
  · unfold isUnknown
    split <;> simp_all

/-- How many of the 256 words with the fields `op` and `x` are Unknown (`countP_isUnknown`). -/
def unknownPerPage (op : Nibble) (x : Reg) : Nat :=
  match op with
  | 0x0#4 => if x = 0x0#4 then 254 else 256
  | 0x8#4 => 112
  | 0xE#4 => 254
  | 0xF#4 => 247
  | _ => 0

theorem countP_isUnknown (op : Nibble) (x : Reg) :
    (List.range 256).countP (fun nn => isUnknown op x (BitVec.ofNat 8 nn)) = unknownPerPage op x := by
  unfold unknownPerPage isUnknown
  split
  · split
    next hx =>
      subst hx
      decide +kernel
    next hx => simp [hx]
  · decide +kernel
  · decide +kernel
  · decide +kernel
  · simp

/-- Counting by pages of `n`. -/
theorem countP_range_mul (p : Nat → Bool) (m n : Nat) :
    (List.range (m * n)).countP p =
      ((List.range m).map fun i => (List.range n).countP fun j => p (i * n + j)).sum := by
  induction m with
  | zero => simp
  | succ m ih =>
    rw [Nat.succ_mul, List.range_add, List.countP_append, List.countP_map, ih, List.range_succ, List.map_append,
      List.sum_append]
    simp [Function.comp_def]

theorem ofNat_eq_formXnn (hi : Nat) {nn : Nat} (h : nn < 256) :
    BitVec.ofNat 16 (hi * 256 + nn) = formXnn (BitVec.ofNat 4 (hi / 16)) (BitVec.ofNat 4 hi) (BitVec.ofNat 8 nn) := by
  rw [← formXnn_of_fields (w := BitVec.ofNat 16 (hi * 256 + nn)) rfl rfl, formXnn_inj]
  refine ⟨?_, ?_, ?_⟩ <;> apply BitVec.eq_of_toNat_eq <;>
    simp only [fieldOp, fieldX, fieldNn, BitVec.extractLsb'_toNat, Nat.shiftRight_eq_div_pow, BitVec.toNat_ofNat] <;>
    omega

theorem countP_unknown_page (hi : Nat) :
    (List.range 256).countP (fun nn => (decodeWord (BitVec.ofNat 16 (hi * 256 + nn))).isNone) =
      unknownPerPage (BitVec.ofNat 4 (hi / 16)) (BitVec.ofNat 4 hi) := by
  rw [← countP_isUnknown]
  refine List.countP_congr fun nn hnn => ?_
  rw [ofNat_eq_formXnn hi (List.mem_range.mp hnn), isNone_decodeWord_formXnn]

/-! ### The obligations -/

/-- Settles O1, a lemma for each field and for each overlap. -/
theorem fieldsOfWord : Obligations.FieldsOfWord := fun w =>
  ⟨setWidth_fieldOp_shiftLeft w, setWidth_fieldX w, setWidth_fieldY w, setWidth_fieldN w, setWidth_fieldNn w,
    setWidth_fieldNnn w, toNat_fieldNn w, toNat_fieldNnn w⟩

/-- Settles O3, from the fields of an assembled word. -/
theorem decodeOfEncode : Obligations.DecodeOfEncode := fun i =>
  ⟨decodeWord_encode i, decodeBytes_bytesOfWord_append (decodeWord_encode i)⟩

/-- Settles O4: both words are the decoded word on the bits that are not ignored. -/
theorem encodeOfDecode : Obligations.EncodeOfDecode := fun _ _ h =>
  (encode_eq_and_keptBits h).trans (canonicalWord_eq_and_keptBits h).symm

/-- Settles O5: every row of the table is the row of an instruction. -/
theorem decoderMatchesOpcodeTable : Obligations.DecoderMatchesOpcodeTable := by
  refine fun w => ⟨fun i h => ⟨row_mem_opcodeTable i, row_covers_of_decodeWord h⟩, fun r hr hcov => ?_⟩
  obtain ⟨i, -, rfl⟩ := List.mem_map.mp hr
  exact decodeWord_of_row_covers i hcov

/-- Settles O6, by summing the 256 pages of words with the same high byte. -/
theorem unknownWordCount : Obligations.UnknownWordCount := by
  have hsum : ((List.range 256).map fun hi =>
      unknownPerPage (BitVec.ofNat 4 (hi / 16)) (BitVec.ofNat 4 hi)).sum = 13902 := by
    decide +kernel
  rw [Obligations.UnknownWordCount, show 65536 = 256 * 256 by norm_num, countP_range_mul, ← hsum]
  simp only [countP_unknown_page]

end Sys2Proof

/-! ## Encoding rules: the instruction step (30_encoding.md R74) -/

namespace Sys2Proof.Machine

theorem step_of_ready {s : State} {rest : List Turn} (hrun : s.run = .ready) (hnext : s.ExecutorMovesNext rest) :
    step s = instructionStep { s with schedule := rest } := by
  rw [step_of_executorMovesNext hnext]
  simp only [executorTurn, hrun]

theorem instructionStep_of_fetch_fault {s : State} (h : s.pc.toNat + 1 ≥ Config.memSize) :
    instructionStep s = .next (takeFault .outOfBounds { s with launched := true }) := by
  simp only [instructionStep, s.memRead2_of_ge h]

theorem instructionStep_of_unknown {s : State} {w : Word} (hfetch : s.memRead2 s.pc.toNat = some w)
    (hd : decodeWord w = none) :
    instructionStep s = .next (takeFault (.unknownInstruction w) s.afterFetch) := by
  simp only [instructionStep, hfetch, hd, takeUnknown, unknownPolicy]

theorem instructionStep_of_decodeWord {s : State} {w : Word} {i : Instr} (hfetch : s.memRead2 s.pc.toNat = some w)
    (hd : decodeWord w = some i) : instructionStep s = exec i s.afterFetch := by
  simp only [instructionStep, hfetch, hd]

theorem State.memRead2_of_toNat {s : State} {a : Nat} {w : Word} (ha : a + 1 < Config.memSize)
    (hw : w.toNat = (s.mem.read a).toNat * 256 + (s.mem.read (a + 1)).toNat) : s.memRead2 a = some w := by
  rw [s.memRead2_of_lt ha, BitVec.eq_of_toNat_eq (hw.trans (toNat_wordOfBytes _ _).symm)]

/-- Settles O18, one lemma of `instructionStep` for each case. -/
theorem instructionStepCases : Obligations.InstructionStepCases := by
  intro s rest hrun hnext
  rw [step_of_ready hrun hnext]
  refine ⟨fun hpc => instructionStep_of_fetch_fault hpc, fun w hpc hw => ?_⟩
  have hfetch : State.memRead2 { s with schedule := rest } s.pc.toNat = some w := State.memRead2_of_toNat hpc hw
  exact ⟨instructionStep_of_unknown hfetch, fun i => instructionStep_of_decodeWord hfetch⟩

/-- Settles O17: with nothing scheduled, or its turn scheduled, the Executor moves next. -/
theorem stepRunsDecodedInstruction : Obligations.StepRunsDecodedInstruction := by
  intro s i rest hrun hpc hbytes
  have hstep {turns : List Turn} (hnext : s.ExecutorMovesNext turns) :
      step s = exec i { s with schedule := turns, pc := s.pc + 2, launched := true } := by
    rw [step_of_ready hrun hnext]
    exact instructionStep_of_decodeWord (State.memRead2_of_lt _ hpc) (decodeWord_of_decodeBytes hbytes)
  refine ⟨fun hs => ?_, fun turns hs => hstep (.inl hs)⟩
  rw [hstep (.inr ⟨hs, rfl⟩), ← hs]

end Sys2Proof.Machine

/-! ## Control-flow rules: jumps, `CALL`, `RET`, skips, and the self-jump (40_control_flow.md) -/

namespace Sys2Proof.Machine

/-! ### Frames of the updates of `PC` -/

theorem unchanged_setPc (s : State) (a : Word) : Unchanged [.pc] s { s with pc := a } := by
  intro p hp
  cases p with
  | pc => exact absurd (List.mem_singleton_self _) hp
  | stack => exact ⟨rfl, rfl⟩
  | mem => exact fun _ => rfl
  | v | i | dt | st | fb | k | run | draws | launched | loadReport | schedule => rfl

/-- A skip writes `PC` at most (40_control_flow.md R108). -/
theorem State.skipIf_eq_setPc (s : State) (c : Bool) :
    s.skipIf c = { s with pc := if c then s.pc + 2 else s.pc } := by
  cases c <;> rfl

theorem unchanged_skipIf (s : State) (c : Bool) : Unchanged [.pc] s (s.skipIf c) := by
  rw [s.skipIf_eq_setPc]
  exact unchanged_setPc s _

theorem unchanged_setStack_setPc (s : State) (slots : Vector Word 12) (depth : Fin 13) (a : Word) :
    Unchanged [.stack, .pc] s { s with stack := slots, sp := depth, pc := a } := by
  intro p hp
  cases p with
  | stack | pc => exact absurd (by decide) hp
  | mem => exact fun _ => rfl
  | v | i | dt | st | fb | k | run | draws | launched | loadReport | schedule => rfl

/-! ### What the jumps and skips answer -/

theorem exec_jp (nnn : Addr12) (s : State) : exec (.jp nnn) s = .next { s with pc := zext12 nnn } := rfl

theorem exec_jpV0Nnn (nnn : Addr12) (s : State) :
    exec (.jpV0Nnn nnn) s = .next { s with pc := zext12 nnn + zext8 (s.readV 0) } := rfl

/-- The target of `JP V0` is not reduced: the sum fits in 16 bits (40_control_flow.md R107). -/
theorem toNat_jumpTarget (nnn : Addr12) (b : Byte) :
    (zext12 nnn + zext8 b).toNat = nnn.toNat + b.toNat := by
  have hnnn := nnn.isLt
  have hb := b.isLt
  rw [BitVec.toNat_add, toNat_zext12, toNat_zext8]
  omega

theorem State.toNat_skipIf_pc (s : State) (c : Bool) :
    (s.skipIf c).pc.toNat = if c then (s.pc.toNat + 2) % 65536 else s.pc.toNat := by
  cases c with
  | false => rfl
  | true => exact BitVec.toNat_add s.pc 2

/-- An instruction that answers a skip on the test `c` of the condition `P` advances `PC` exactly when `P` holds,
and changes nothing else (40_control_flow.md R103 to R106, R108). -/
theorem exec_skip {i : Instr} {s : State} {c : Bool} (h : exec i s = .next (s.skipIf c)) {P : Prop} [Decidable P]
    (hc : c = true ↔ P) :
    ∃ t, exec i s = .next t ∧ t.pc.toNat = (if P then (s.pc.toNat + 2) % 65536 else s.pc.toNat) ∧
      Unchanged [.pc] s t := by
  refine ⟨_, h, ?_, unchanged_skipIf s c⟩
  simp only [s.toNat_skipIf_pc, hc]

/-! ### The self-jump -/

theorem toNat_formNnn (op : Nibble) (nnn : Addr12) : (formNnn op nnn).toNat = op.toNat * 4096 + nnn.toNat := by
  have h : (formNnn op nnn).toNat = op.toNat <<< 12 ||| nnn.toNat := BitVec.toNat_append op nnn
  rw [h, ← Nat.shiftLeft_add_eq_or_of_lt nnn.isLt, Nat.shiftLeft_eq]

theorem toNat_setWidth_of_le {a : Word} (h : a.toNat ≤ 0x0FFE) : (a.setWidth 12).toNat = a.toNat := by
  rw [BitVec.toNat_setWidth, Nat.mod_eq_of_lt (by omega)]

theorem zext12_setWidth {a : Word} (h : a.toNat ≤ 0x0FFE) : zext12 (a.setWidth 12) = a :=
  BitVec.eq_of_toNat_eq ((toNat_zext12 _).trans (toNat_setWidth_of_le h))

/-- The word at a self-jump is `JP` to the low 12 bits of `PC`, which are all of it below 0x1000. -/
theorem State.memRead2_of_atSelfJump {s : State} (h : s.AtSelfJump) :
    s.memRead2 s.pc.toNat = some (encode (.jp (s.pc.setWidth 12))) := by
  obtain ⟨-, hpc, hword⟩ := h
  refine State.memRead2_of_toNat (by rw [Config.memSize]; omega) ?_
  rw [hword, encode, toNat_formNnn, toNat_setWidth_of_le hpc]
  rfl

/-- An instruction step at a self-jump writes nothing but the mark that a step has been taken. -/
theorem instructionStep_of_atSelfJump {s : State} (h : s.AtSelfJump) :
    instructionStep s = .next { s with launched := true } := by
  have ⟨_, hpc, _⟩ := h
  rw [instructionStep_of_decodeWord (State.memRead2_of_atSelfJump h) (decodeWord_encode _), exec_jp,
    zext12_setWidth hpc]
  rfl

/-! ### The obligations -/

/-- Settles O26: the step jumps to `PC` itself and sets the mark that is already set. -/
theorem selfJumpStandsStill : Obligations.SelfJumpStandsStill := by
  intro s rest hself hlaunched hnext
  have ⟨hrun, _, _⟩ := hself
  have hself' : State.AtSelfJump { s with schedule := rest } := hself
  rw [step_of_ready hrun hnext, instructionStep_of_atSelfJump hself', ← hlaunched]

/-- Settles O33, from the 16-bit value of each target. -/
theorem jumpLoadsTarget : Obligations.JumpLoadsTarget := fun nnn s =>
  ⟨⟨_, exec_jp nnn s, toNat_zext12 nnn, unchanged_setPc s _⟩,
    ⟨_, exec_jpV0Nnn nnn s, toNat_jumpTarget nnn _, unchanged_setPc s _⟩⟩

/-- Settles O34: the advanced `PC` goes to the slot at `SP` and to no other. -/
theorem callPushesReturnAddress : Obligations.CallPushesReturnAddress := by
  intro nnn s hroom
  refine ⟨_, exec_call_of_lt s nnn hroom, Vector.getElem_set_self hroom, rfl, fun j hj hne => ?_,
    toNat_zext12 nnn, unchanged_setStack_setPc s _ _ _⟩
  exact Vector.getElem_set_ne hroom hj hne.symm

/-- Settles O36, from the answer of `RET` on a stack that holds an entry. -/
theorem returnPopsAddress : Obligations.ReturnPopsAddress := fun s _ hn hsp =>
  ⟨_, exec_ret_of_succ s hn hsp, rfl, rfl, rfl, unchanged_setStack_setPc s s.stack _ _⟩

/-- Settles O38: each instruction skips on a Boolean test of its condition. -/
theorem skipOnImmediate : Obligations.SkipOnImmediate := fun _ _ _ =>
  ⟨exec_skip rfl beq_iff_eq, exec_skip rfl bne_iff_ne⟩

/-- Settles O39, as O38 with the second register for the immediate. -/
theorem skipOnRegister : Obligations.SkipOnRegister := fun _ _ _ =>
  ⟨exec_skip rfl beq_iff_eq, exec_skip rfl bne_iff_ne⟩

end Sys2Proof.Machine

/-! ## Register rules: load, arithmetic, logic, shift and random (41_load_arith_logic.md) -/

namespace Sys2Proof.Machine

/-! ### Frames of the register updates -/

theorem unchanged_setV (s : State) (regs : Vector Byte 16) : Unchanged [.v] s { s with v := regs } := by
  intro p hp
  cases p with
  | v => exact absurd (List.mem_singleton_self _) hp
  | stack => exact ⟨rfl, rfl⟩
  | mem => exact fun _ => rfl
  | i | pc | dt | st | fb | k | run | draws | launched | loadReport | schedule => rfl

theorem unchanged_setV_setDraws (s : State) (regs : Vector Byte 16) (n : Nat) :
    Unchanged [.v, .draws] s { s with v := regs, draws := n } := by
  intro p hp
  cases p with
  | v | draws => exact absurd (by decide) hp
  | stack => exact ⟨rfl, rfl⟩
  | mem => exact fun _ => rfl
  | i | pc | dt | st | fb | k | run | launched | loadReport | schedule => rfl

theorem regsUnchanged_writeV (s : State) (x : Reg) (b : Byte) : RegsUnchanged [x] s (s.writeV x b) :=
  fun r hr => s.readV_writeV_other x r b (List.ne_of_not_mem_cons hr)

theorem regsUnchanged_writeResultThenFlag (s : State) (x : Reg) (r : Byte) (f : Bool) :
    RegsUnchanged [x, vf] s (s.writeResultThenFlag x r f) := by
  intro q hq
  simp only [List.mem_cons, List.not_mem_nil, or_false, not_or] at hq
  obtain ⟨hx, hvf⟩ := hq
  exact s.readV_writeResultThenFlag_other x q r f hx hvf

/-! ### The values of the results and of the flags -/

/-- A difference modulo 256, with the 256 added before the subtraction (R117, R119). -/
theorem toNat_sub_byte (p q : Byte) : (p - q).toNat = (p.toNat + 256 - q.toNat) % 256 := by
  have hq := q.isLt
  rw [BitVec.toNat_sub]
  congr 1
  omega

theorem toNat_shiftRight_one (p : Byte) : (p >>> 1).toNat = p.toNat / 2 := by
  rw [BitVec.toNat_ushiftRight, Nat.shiftRight_one]

theorem toNat_shiftLeft_one (p : Byte) : (p <<< 1).toNat = p.toNat * 2 % 256 := by
  rw [BitVec.toNat_shiftLeft, Nat.shiftLeft_eq, Nat.pow_one]

theorem flagByte_decide (P : Prop) [Decidable P] : flagByte (decide P) = if P then 0x01 else 0x00 := by
  simp only [flagByte, decide_eq_true_eq]

theorem toNat_flagByte (f : Bool) : (flagByte f).toNat = f.toNat := by
  cases f <;> rfl

theorem toNat_flagByte_bitOutRight (p : Byte) : (flagByte (bitOutRight p)).toNat = p.toNat % 2 := by
  rw [toNat_flagByte, bitOutRight, BitVec.getLsbD, Nat.toNat_testBit, Nat.pow_zero, Nat.div_one]

/-- Bit 7 is the top bit of a byte, so it is the quotient by 128 (R120). -/
theorem toNat_flagByte_bitOutLeft (p : Byte) : (flagByte (bitOutLeft p)).toNat = p.toNat / 128 := by
  have hp := p.isLt
  rw [toNat_flagByte, bitOutLeft, BitVec.getLsbD, Nat.toNat_testBit]
  omega

/-! ### What an instruction answers that writes one register, or a result and the flag -/

section

variable {i : Instr} {s : State} {x : Reg}

theorem exec_writeV {b : Byte} (h : exec i s = .next (s.writeV x b)) :
    ∃ t, exec i s = .next t ∧ t.readV x = b ∧ RegsUnchanged [x] s t ∧ Unchanged [.v] s t :=
  ⟨_, h, s.readV_writeV_same x b, regsUnchanged_writeV s x b, unchanged_setV s _⟩

theorem exec_writeV_bits {b : Byte} {bit : Nat → Bool} (h : exec i s = .next (s.writeV x b))
    (hbit : ∀ k, b.getLsbD k = bit k) :
    ∃ t, exec i s = .next t ∧ RegsUnchanged [x] s t ∧ Unchanged [.v] s t ∧
      ∀ k < 8, (t.readV x).getLsbD k = bit k := by
  obtain ⟨t, ht, hval, hregs, hrest⟩ := exec_writeV h
  exact ⟨t, ht, hregs, hrest, fun k _ => hval ▸ hbit k⟩

/-- The flag remains in `VF` whatever `x` is, and the result in `V[x]` when that is not `VF` (R123). -/
theorem exec_writeResultThenFlag {r c : Byte} {f : Bool} {n : Nat}
    (h : exec i s = .next (s.writeResultThenFlag x r f)) (hflag : flagByte f = c) (hresult : r.toNat = n) :
    ∃ t, exec i s = .next t ∧ t.readV 15 = c ∧ (x ≠ 15 → (t.readV x).toNat = n) ∧
      RegsUnchanged [x, 15] s t ∧ Unchanged [.v] s t := by
  refine ⟨_, h, ?_, fun hx => ?_, regsUnchanged_writeResultThenFlag s x r f, unchanged_setV s _⟩
  · rw [s.readV_writeResultThenFlag_vf, hflag]
  · rw [s.readV_writeResultThenFlag_dest x r f hx, hresult]

end

/-! ### The obligations -/

/-- Settles O40: both instructions write `V[x]` alone. -/
theorem loadImmediateAndCopy : Obligations.LoadImmediateAndCopy := fun _ _ _ _ =>
  ⟨exec_writeV rfl, exec_writeV rfl⟩

/-- Settles O41: the sum of bytes wraps, and `V[x]` alone is written. -/
theorem addImmediateSetsNoFlag : Obligations.AddImmediateSetsNoFlag := by
  intro x nn s
  obtain ⟨t, ht, hval, hframe⟩ := exec_writeV (i := .addVxNn x nn) (s := s) rfl
  exact ⟨t, ht, by rw [hval, BitVec.toNat_add], hframe⟩

/-- Settles O42, from the bits of each bitwise operation. -/
theorem logicIsBitwise : Obligations.LogicIsBitwise := fun _ _ _ =>
  ⟨exec_writeV_bits rfl fun _ => BitVec.getLsbD_or, exec_writeV_bits rfl fun _ => BitVec.getLsbD_and,
    exec_writeV_bits rfl fun _ => BitVec.getLsbD_xor⟩

/-- Settles O43, from the carry as a flag and the wrapped sum. -/
theorem addRegistersSetsCarry : Obligations.AddRegistersSetsCarry := fun _ _ _ =>
  exec_writeResultThenFlag rfl (flagByte_decide _) (BitVec.toNat_add _ _)

/-- Settles O44, from no-borrow as a flag and the wrapped difference. -/
theorem subtractsSetNoBorrow : Obligations.SubtractsSetNoBorrow := fun _ _ _ =>
  ⟨exec_writeResultThenFlag rfl (flagByte_decide _) (toNat_sub_byte _ _),
    exec_writeResultThenFlag rfl (flagByte_decide _) (toNat_sub_byte _ _)⟩

/-- Settles O45, from the bit that leaves at each end and the shifted value. -/
theorem shiftsSetBitOut : Obligations.ShiftsSetBitOut := by
  intro x s
  constructor
  · obtain ⟨t, ht, hflag, hrest⟩ :=
      exec_writeResultThenFlag (i := .shrVx x) (s := s) rfl rfl (toNat_shiftRight_one _)
    exact ⟨t, ht, by rw [hflag, toNat_flagByte_bitOutRight], hrest⟩
  · obtain ⟨t, ht, hflag, hrest⟩ :=
      exec_writeResultThenFlag (i := .shlVx x) (s := s) rfl rfl (toNat_shiftLeft_one _)
    exact ⟨t, ht, by rw [hflag, toNat_flagByte_bitOutLeft], hrest⟩

/-- Settles O46: the draw counts itself and writes `V[x]` alone; masking by 0x00 clears every bit and by 0xFF none. -/
theorem randomIsMaskedDraw : Obligations.RandomIsMaskedDraw := by
  intro x nn s
  have hval := s.readV_writeV_same x (Config.rnd8 s.draws &&& nn)
  refine ⟨_, rfl, hval, fun hzero => ?_, fun hones => ?_, rfl, regsUnchanged_writeV s x _,
    unchanged_setV_setDraws s _ _⟩
  · exact hval.trans (by rw [hzero]; exact BitVec.and_zero)
  · exact hval.trans (by rw [hones]; exact BitVec.and_allOnes)

end Sys2Proof.Machine

/-! ## Index and memory rules: setting `I`, and the blocks stored and loaded at `I` (42_index_memory.md) -/

namespace Sys2Proof.Machine

/-! ### Frames of the updates of `I`, of a block of memory and of a block of registers -/

theorem unchanged_setI (s : State) (a : Word) : Unchanged [.i] s { s with i := a } := by
  intro p hp
  cases p with
  | i => exact absurd (List.mem_singleton_self _) hp
  | stack => exact ⟨rfl, rfl⟩
  | mem => exact fun _ => rfl
  | v | pc | dt | st | fb | k | run | draws | launched | loadReport | schedule => rfl

theorem memUnchangedOutside_storeBlock (s : State) (base : Nat) (bs : List Byte) :
    MemUnchangedOutside base bs.length s (s.storeBlock base bs) :=
  fun _ ha => s.mem.read_writeBlock_outside base bs ha

/-- A run of register writes is one update of the general registers. -/
theorem State.writeRegs_eq_setV (s : State) (k : Nat) (bs : List Byte) :
    ∃ regs, s.writeRegs k bs = { s with v := regs } := by
  induction bs generalizing s k with
  | nil => exact ⟨s.v, rfl⟩
  | cons b bs ih => exact ih (s.writeV (BitVec.ofNat 4 k) b) (k + 1)

theorem unchanged_writeRegs (s : State) (k : Nat) (bs : List Byte) : Unchanged [.v] s (s.writeRegs k bs) := by
  obtain ⟨regs, hregs⟩ := s.writeRegs_eq_setV k bs
  rw [hregs]
  exact unchanged_setV s regs

/-! ### The block of bytes at `I` -/

/-- The `n` bytes at `I` upward, in the order of their addresses. -/
def State.indexBytes (s : State) (n : Nat) : List Byte := (List.range n).map fun k => s.mem.read (s.indexAddr k)

@[simp] theorem State.length_indexBytes (s : State) (n : Nat) : (s.indexBytes n).length = n := by
  rw [State.indexBytes, List.length_map, List.length_range]

theorem State.getElem_indexBytes (s : State) (n k : Nat) (h : k < (s.indexBytes n).length) :
    (s.indexBytes n)[k] = s.mem.read (s.indexAddr k) := by
  simp only [State.indexBytes, List.getElem_map, List.getElem_range]

/-- After a store at `I` inside the memory, the byte at `I + k` is the `k`-th byte stored. -/
theorem State.read_storeBlock_indexAddr {s : State} (hwf : s.mem.wf = true) {bs : List Byte}
    (hend : s.i.toNat + bs.length ≤ 4096) (k : Nat) (hk : k < bs.length) :
    (s.storeBlock (s.indexAddr 0) bs).mem.read (s.indexAddr k) = bs[k] :=
  Memory.read_writeBlock_inside hwf (s.indexAddr 0) bs hend k hk

/-! ### What the block instructions answer in bounds -/

theorem exec_ldVxMem_of_lt (s : State) (x : Reg) (h : s.i.toNat + x.toNat < 4096) :
    exec (.ldVxMem x) s = .next (s.writeRegs 0 (s.indexBytes (x.toNat + 1))) := by
  have hload : s.loadBytes (s.indexAddr 0) (x.toNat + 1) = some (s.indexBytes (x.toNat + 1)) :=
    (s.loadBytes_eq _ _).trans (if_pos (.inr h))
  simp only [exec, execLdVxMem, hload]

theorem exec_ldBVx_of_lt (s : State) (x : Reg) (h : s.i.toNat + 2 < 4096) :
    exec (.ldBVx x) s = .next (s.storeBlock (s.indexAddr 0) (bcdDigits (s.readV x))) := by
  have hstore : s.storeBytes (s.indexAddr 0) (bcdDigits (s.readV x)) =
      some (s.storeBlock (s.indexAddr 0) (bcdDigits (s.readV x))) :=
    (s.storeBytes_eq _ _).trans (if_pos (.inr h))
  simp only [exec, execLdBVx, hstore]

/-- A load of `V[0] .. V[x]` puts the byte at `I + k` in `V[k]` up to `x` and leaves the registers above alone
(42_index_memory.md R135). -/
theorem State.readV_writeRegs_indexBytes (s : State) (x r : Reg) :
    (s.writeRegs 0 (s.indexBytes (x.toNat + 1))).readV r =
      if r.toNat ≤ x.toNat then s.mem.read (s.indexAddr r.toNat) else s.readV r := by
  have hx := x.isLt
  rw [s.readV_writeRegs 0 _ (by rw [State.length_indexBytes]; omega)]
  by_cases hr : r.toNat ≤ x.toNat
  · rw [if_pos hr, dif_pos (by rw [State.length_indexBytes]; omega), State.getElem_indexBytes, Nat.sub_zero]
  · rw [if_neg hr, dif_neg (by rw [State.length_indexBytes]; omega)]

/-! ### The decoding of `ANNN` -/

theorem decodeWord_of_and_eq_A000 {w : Word} (h : w &&& 0xF000#16 = 0xA000#16) :
    decodeWord w = some (.ldINnn (fieldNnn w)) := by
  rw [decodeWord, fieldOp_of_and_op h]
  rfl

theorem toNat_fieldNnn_eq_mod (w : Word) : (fieldNnn w).toNat = w.toNat % 4096 := by
  rw [fieldNnn, BitVec.extractLsb'_toNat, Nat.shiftRight_zero]

/-! ### The obligations -/

/-- Settles O50, from what the stored block reads back and the frame of a block store. -/
theorem storeRegisterBlock : Obligations.StoreRegisterBlock := by
  intro x s hwf hend
  have houtside := memUnchangedOutside_storeBlock s (s.indexAddr 0) (s.regBlock x)
  rw [State.length_regBlock] at houtside
  exact ⟨_, exec_ldMemVx_of_lt s x hend, fun r hr => State.read_storeBlock_regBlock hwf hr hend, houtside,
    unchanged_setMem s _⟩

/-- Settles O51, by the two sides of `x` in the registers a block load writes. -/
theorem loadRegisterBlock : Obligations.LoadRegisterBlock := by
  intro x s hend
  refine ⟨_, exec_ldVxMem_of_lt s x hend, fun r hr => ?_, fun r hr => ?_, unchanged_writeRegs s 0 _⟩
  · rw [State.readV_writeRegs_indexBytes, if_pos hr]
  · rw [State.readV_writeRegs_indexBytes, if_neg (Nat.not_le.mpr hr)]

/-- Settles O52: the store leaves `I` alone, so the load (O51) reads the bytes that the store (O50) wrote. -/
theorem storeThenLoadBlock : Obligations.StoreThenLoadBlock := by
  intro x s u hwf hend
  obtain ⟨t, hstore, hstored, -, hframe⟩ := storeRegisterBlock x s hwf hend
  refine ⟨t, hstore, fun hmem hi => ?_⟩
  have hui : u.i = s.i := hi.trans (hframe .i (by decide))
  obtain ⟨r, hload, hloaded, -⟩ := loadRegisterBlock x u (by rw [hui]; exact hend)
  refine ⟨r, hload, fun q hq => ?_⟩
  calc r.readV q = u.mem.read (u.indexAddr q.toNat) := hloaded q hq
    _ = t.mem.read (s.indexAddr q.toNat) := by rw [hmem, State.indexAddr, hui, State.indexAddr]
    _ = s.readV q := hstored q hq

/-- Settles O47: an `ANNN` word carries `nnn` in its low 12 bits; the example takes `w` to be `A050`. -/
theorem setIndex : Obligations.SetIndex := by
  have hdecode (w : Word) (hw : w &&& 0xF000#16 = 0xA000#16) :
      ∃ nnn : Addr12, decodeWord w = some (.ldINnn nnn) ∧ nnn.toNat = w.toNat % 4096 :=
    ⟨_, decodeWord_of_and_eq_A000 hw, toNat_fieldNnn_eq_mod w⟩
  refine ⟨hdecode, fun nnn s => ?_, ?_⟩
  · exact ⟨_, rfl, toNat_zext12 nnn, (toNat_zext12 nnn).trans_le (Nat.le_of_lt_succ nnn.isLt),
      unchanged_setI s _⟩
  · obtain ⟨nnn, hdec, hval⟩ := hdecode 0xA050 (by decide)
    exact ⟨nnn, hdec, fun s => ⟨_, rfl, BitVec.eq_of_toNat_eq ((toNat_zext12 nnn).trans hval)⟩⟩

/-- Settles O48: the sum wraps at 16 bits, and the glyph address of a byte stays below that. -/
theorem indexArithmetic : Obligations.IndexArithmetic := by
  intro x s
  have hbyte := (s.readV x).isLt
  refine ⟨⟨_, rfl, ?_, unchanged_setI s _⟩, ⟨_, rfl, toNat_glyphAddr _, ?_, unchanged_setI s _⟩⟩
  · rw [BitVec.toNat_add, toNat_zext8]
  · rw [toNat_glyphAddr]
    omega

/-- Settles O49: the three stored bytes are the decimal digits, each of which fits a byte. -/
theorem storeDecimalDigits : Obligations.StoreDecimalDigits := by
  intro x s hwf hend
  have hbyte := (s.readV x).isLt
  have hread := State.read_storeBlock_indexAddr hwf (bs := bcdDigits (s.readV x)) hend
  refine ⟨_, exec_ldBVx_of_lt s x hend, ?_, ?_, ?_,
    memUnchangedOutside_storeBlock s (s.indexAddr 0) (bcdDigits (s.readV x)), unchanged_setMem s _⟩
  · rw [hread 0 (by simp)]
    exact Nat.mod_eq_of_lt (by omega)
  · rw [hread 1 (by simp)]
    exact Nat.mod_eq_of_lt (by omega)
  · rw [hread 2 (by simp)]
    exact Nat.mod_eq_of_lt (by omega)

end Sys2Proof.Machine

/-! ## Display rules: `CLS`, and the pixels a sprite toggles (43_display.md) -/

namespace Sys2Proof.Machine

/-! ### Frames of the updates of the framebuffer -/

theorem unchanged_setFb (s : State) (fb : Framebuffer) : Unchanged [.fb] s { s with fb := fb } := by
  intro p hp
  cases p with
  | fb => exact absurd (List.mem_singleton_self _) hp
  | stack => exact ⟨rfl, rfl⟩
  | mem => exact fun _ => rfl
  | v | i | pc | dt | st | k | run | draws | launched | loadReport | schedule => rfl

theorem unchanged_setV_setFb (s : State) (regs : Vector Byte 16) (fb : Framebuffer) :
    Unchanged [.v, .fb] s { s with v := regs, fb := fb } := by
  intro p hp
  cases p with
  | v | fb => exact absurd (by decide) hp
  | stack => exact ⟨rfl, rfl⟩
  | mem => exact fun _ => rfl
  | i | pc | dt | st | k | run | draws | launched | loadReport | schedule => rfl

/-! ### The state after a drawing -/

theorem flagByte_eq_one_iff {f : Bool} : flagByte f = 0x01 ↔ f = true := by
  cases f <;> decide

/-- The canvas of a finished drawing written back: the framebuffer, then the collision flag (R141). -/
def State.withCanvas (s : State) (cv : Canvas) : State := { s with fb := cv.1 }.writeV vf (flagByte cv.2)

@[simp] theorem State.withCanvas_fb (s : State) (cv : Canvas) : (s.withCanvas cv).fb = cv.1 := rfl

@[simp] theorem State.readV_withCanvas_vf (s : State) (cv : Canvas) :
    (s.withCanvas cv).readV vf = flagByte cv.2 :=
  State.readV_writeV_same _ vf _

theorem regsUnchanged_withCanvas (s : State) (cv : Canvas) : RegsUnchanged [vf] s (s.withCanvas cv) :=
  regsUnchanged_writeV { s with fb := cv.1 } vf _

theorem unchanged_withCanvas (s : State) (cv : Canvas) : Unchanged [.v, .fb] s (s.withCanvas cv) :=
  unchanged_setV_setFb s _ cv.1

/-- A drawing at a position that is not held in `VF` covers the same pixels when it is repeated. -/
theorem State.spriteCovers_withCanvas {s : State} {x y : Reg} (hx : x ≠ vf) (hy : y ≠ vf) (cv : Canvas)
    (n : Nibble) (px py : Nat) : (s.withCanvas cv).SpriteCovers x y n px py ↔ s.SpriteCovers x y n px py := by
  have hregs := regsUnchanged_withCanvas s cv
  have hcol := hregs x (mt List.mem_singleton.mp hx)
  have hrow := hregs y (mt List.mem_singleton.mp hy)
  simp only [State.SpriteCovers, hcol, hrow]
  rfl

/-! ### Drawings that toggle a set of pixels -/

/-- From `cv` to `cv'` exactly the pixels of the grid in `covers` change, and `hit` is raised exactly when one of
them was set. -/
structure Toggles (covers : Nat → Nat → Prop) (cv cv' : Canvas) : Prop where
  changes_iff : ∀ {px py}, px < 64 → py < 32 → (cv'.1.pixel px py ≠ cv.1.pixel px py ↔ covers px py)
  hit_iff : cv'.2 = true ↔
    cv.2 = true ∨ ∃ px, px < 64 ∧ ∃ py, py < 32 ∧ cv.1.pixel px py = true ∧ covers px py

namespace Toggles

variable {A B : Nat → Nat → Prop} {cv cv' cv'' : Canvas}

/-- Drawing nothing toggles any set that meets no row of the grid. -/
theorem refl (cv : Canvas) (h : ∀ px py, py < 32 → ¬ A px py) : Toggles A cv cv where
  changes_iff _ hy := iff_of_false (fun hne => hne rfl) (h _ _ hy)
  hit_iff := by
    refine ⟨.inl, ?_⟩
    rintro (hit | ⟨px, -, py, hy, -, hA⟩)
    · exact hit
    · exact absurd hA (h px py hy)

theorem congr (h : Toggles A cv cv') (hAB : ∀ px py, A px py ↔ B px py) : Toggles B cv cv' := by
  obtain rfl : A = B := funext₂ fun px py => propext (hAB px py)
  exact h

theorem pixel_of_covers (h : Toggles A cv cv') {px py : Nat} (hx : px < 64) (hy : py < 32) (hA : A px py) :
    cv'.1.pixel px py = !cv.1.pixel px py :=
  Bool.eq_not.mpr ((h.changes_iff hx hy).mpr hA)

theorem pixel_of_not_covers (h : Toggles A cv cv') {px py : Nat} (hx : px < 64) (hy : py < 32)
    (hA : ¬ A px py) : cv'.1.pixel px py = cv.1.pixel px py :=
  not_ne_iff.mp (mt (h.changes_iff hx hy).mp hA)

/-- One pixel drawn toggles that pixel (R141). -/
theorem of_drawPixel (cv : Canvas) {x y : Nat} (hx : x < 64) (hy : y < 32) :
    Toggles (fun px py => py = y ∧ px = x) cv (drawPixel cv x y) where
  changes_iff _ _ := by
    rw [pixel_drawPixel cv x y _ _ hx hy]
    split
    next h => exact iff_of_true (Bool.not_ne_self _) h.symm
    next h => exact iff_of_false (fun hne => hne rfl) (mt And.symm h)
  hit_iff := by
    rw [hit_drawPixel, Bool.or_eq_true]
    refine or_congr_right ⟨fun h => ⟨x, hx, y, hy, h, rfl, rfl⟩, ?_⟩
    rintro ⟨_, -, _, -, h, rfl, rfl⟩
    exact h

/-- Two drawings in a row on disjoint sets toggle the union: no pixel is toggled back, and the second drawing
meets its pixels as they were before the first. -/
theorem trans (hA : Toggles A cv cv') (hB : Toggles B cv' cv'') (hdisj : ∀ px py, A px py → ¬ B px py) :
    Toggles (fun px py => A px py ∨ B px py) cv cv'' where
  changes_iff {px py} hx hy := by
    by_cases hb : B px py
    · have ha : ¬ A px py := fun ha => hdisj px py ha hb
      rw [← hA.pixel_of_not_covers hx hy ha, hB.changes_iff hx hy]
      exact (or_iff_right ha).symm
    · rw [hB.pixel_of_not_covers hx hy hb, hA.changes_iff hx hy]
      exact (or_iff_left hb).symm
  hit_iff := by
    have hmet {px py} (hx : px < 64) (hy : py < 32) (hb : B px py) : cv'.1.pixel px py = cv.1.pixel px py :=
      hA.pixel_of_not_covers hx hy fun ha => hdisj px py ha hb
    rw [hB.hit_iff, hA.hit_iff, or_assoc]
    refine or_congr_right ⟨?_, ?_⟩
    · rintro (⟨px, hx, py, hy, hset, ha⟩ | ⟨px, hx, py, hy, hset, hb⟩)
      · exact ⟨px, hx, py, hy, hset, .inl ha⟩
      · exact ⟨px, hx, py, hy, hmet hx hy hb ▸ hset, .inr hb⟩
    · rintro ⟨px, hx, py, hy, hset, ha | hb⟩
      · exact .inl ⟨px, hx, py, hy, hset, ha⟩
      · exact .inr ⟨px, hx, py, hy, (hmet hx hy hb).trans hset, hb⟩

end Toggles

/-! ### The drawing loop -/

/-- One of the first `n` column offsets of a row byte drawn at `(x0, yy)` is set and falls on the pixel (R142). -/
def RowCovers (b : Byte) (x0 yy n px py : Nat) : Prop :=
  ∃ c, c < n ∧ py = yy ∧ px = (x0 + c) % 64 ∧ rowPixel b c = true

/-- A set bit of the row bytes drawn from `(x0, yy)` downward falls on the pixel (R142). -/
def RowsCover (bs : List Byte) (x0 yy px py : Nat) : Prop :=
  ∃ r, ∃ h : r < bs.length, RowCovers bs[r] x0 (yy + r) 8 px py

theorem rowCovers_succ {b : Byte} {x0 yy n px py : Nat} :
    RowCovers b x0 yy (n + 1) px py ↔
      RowCovers b x0 yy n px py ∨ (py = yy ∧ px = (x0 + n) % 64 ∧ rowPixel b n = true) :=
  Nat.exists_lt_succ_right

theorem rowsCover_cons {b : Byte} {bs : List Byte} {x0 yy px py : Nat} :
    RowsCover (b :: bs) x0 yy px py ↔ RowCovers b x0 yy 8 px py ∨ RowsCover bs x0 (yy + 1) px py := by
  rw [RowsCover, ← Nat.or_exists_add_one]
  simp [RowsCover, Nat.add_right_comm, Nat.add_assoc]

theorem RowsCover.le {bs : List Byte} {x0 yy px py : Nat} (h : RowsCover bs x0 yy px py) : yy ≤ py := by
  obtain ⟨r, -, c, -, hrow, -⟩ := h
  omega

/-- The columns of a row toggle the pixels of its set bits: 8 columns or fewer wrap to as many pixels (R141). -/
theorem toggles_drawColumns (cv : Canvas) (b : Byte) (x0 : Nat) {yy n : Nat} (hyy : yy < 32) (hn : n ≤ 8) :
    Toggles (RowCovers b x0 yy n) cv (drawColumns cv b x0 yy n) := by
  induction n with
  | zero => exact .refl cv fun px py _ ⟨c, hc, _⟩ => absurd hc (Nat.not_lt_zero c)
  | succ n ih =>
    have hprev := ih (Nat.le_of_succ_le hn)
    rw [drawColumns]
    split
    next hbit =>
      have hpixel := Toggles.of_drawPixel (drawColumns cv b x0 yy n) (Nat.mod_lt (x0 + n) (by decide)) hyy
      refine (hprev.trans hpixel ?_).congr fun px py => by simp only [rowCovers_succ, hbit, and_true]
      rintro px py ⟨c, hc, -, hcol, -⟩ ⟨-, hcol'⟩
      omega
    next hbit =>
      refine hprev.congr fun px py => ?_
      simp only [rowCovers_succ, hbit, Bool.false_eq_true, and_false, or_false]

/-- The rows toggle the pixels of the set bits: a row below the bottom edge covers no pixel of the grid, and no
later row meets the pixels of an earlier one (R141). -/
theorem toggles_drawRows (cv : Canvas) (bs : List Byte) (x0 yy : Nat) :
    Toggles (RowsCover bs x0 yy) cv (drawRows cv bs x0 yy) := by
  induction bs generalizing cv yy with
  | nil => exact .refl cv fun px py _ ⟨r, hr, _⟩ => absurd hr (Nat.not_lt_zero r)
  | cons b bs ih =>
    have hrow : Toggles (RowCovers b x0 yy 8) cv (if yy ≤ 31 then drawColumns cv b x0 yy 8 else cv) := by
      split
      next hyy => exact toggles_drawColumns cv b x0 (Nat.lt_succ_of_le hyy) (le_refl 8)
      next hyy => exact .refl cv fun px py hy ⟨c, _, hrow, _⟩ => by omega
    refine (hrow.trans (ih _ (yy + 1)) ?_).congr fun px py => rowsCover_cons.symm
    rintro px py ⟨c, -, hrow, -⟩ hrest
    have := hrest.le
    omega

/-! ### What `DRW` answers in bounds -/

theorem State.spriteRows_of_lt {s : State} {n : Nibble} (h : n.toNat = 0 ∨ s.i.toNat + n.toNat - 1 < 4096) :
    s.spriteRows n = some (s.indexBytes n.toNat) :=
  (s.loadBytes_eq _ _).trans (if_pos (by rw [State.indexAddr]; omega))

theorem rowsCover_indexBytes (s : State) (x y : Reg) (n : Nibble) (px py : Nat) :
    RowsCover (s.indexBytes n.toNat) (s.startColumn x) (s.startRow y) px py ↔ s.SpriteCovers x y n px py := by
  simp only [RowsCover, State.length_indexBytes, State.getElem_indexBytes, exists_prop]
  rfl

/-- In bounds `DRW` writes back a canvas on which exactly the covered pixels are toggled (R141). -/
theorem exec_drwVxVyN_of_lt (x y : Reg) {n : Nibble} {s : State}
    (h : n.toNat = 0 ∨ s.i.toNat + n.toNat - 1 < 4096) :
    ∃ cv, exec (.drwVxVyN x y n) s = .next (s.withCanvas cv) ∧
      Toggles (s.SpriteCovers x y n) (s.fb, false) cv := by
  refine ⟨_, ?_, (toggles_drawRows _ (s.indexBytes n.toNat) (s.startColumn x) (s.startRow y)).congr
    (rowsCover_indexBytes s x y n)⟩
  simp only [exec, execDrwVxVyN, State.spriteRows_of_lt h]
  rfl

/-! ### The obligations -/

/-- Settles O54, from the set of pixels that the drawing toggles. -/
theorem drawTogglesCoveredPixels : Obligations.DrawTogglesCoveredPixels := by
  intro x y n s hend
  obtain ⟨cv, hexec, hcv⟩ := exec_drwVxVyN_of_lt x y hend
  have hhit : cv.2 = true ↔ s.Collides x y n := hcv.hit_iff.trans (or_iff_right Bool.false_ne_true)
  refine ⟨_, hexec, fun px py hx hy => ⟨fun hc => ?_, fun hc => ?_⟩, fun hc => ?_, fun hc => ?_,
    regsUnchanged_withCanvas s cv, unchanged_withCanvas s cv⟩
  · exact hcv.pixel_of_covers hx hy hc
  · exact hcv.pixel_of_not_covers hx hy hc
  · rw [State.readV_withCanvas_vf, hhit.mpr hc]
    rfl
  · rw [State.readV_withCanvas_vf, Bool.eq_false_iff.mpr (mt hhit.mp hc)]
    rfl

/-- Settles O55: both draws toggle the same pixels, so each pixel is toggled twice or never; a covered pixel is set
before the second draw exactly when the first set it. -/
theorem drawTwiceRestores : Obligations.DrawTwiceRestores := by
  intro x y n s hx hy hend
  obtain ⟨cv, hfirst, hcv⟩ := exec_drwVxVyN_of_lt x y hend
  obtain ⟨cv', hsecond, hcv'⟩ := exec_drwVxVyN_of_lt x y (s := s.withCanvas cv) hend
  replace hcv' := hcv'.congr (State.spriteCovers_withCanvas hx hy cv n)
  refine ⟨_, _, hfirst, hsecond, Framebuffer.ext_pixel fun px py hpx hpy => ?_, ?_⟩
  · by_cases hc : s.SpriteCovers x y n px py
    · calc cv'.1.pixel px py = !cv.1.pixel px py := hcv'.pixel_of_covers hpx hpy hc
        _ = !!s.fb.pixel px py := congrArg _ (hcv.pixel_of_covers hpx hpy hc)
        _ = s.fb.pixel px py := Bool.not_not _
    · calc cv'.1.pixel px py = cv.1.pixel px py := hcv'.pixel_of_not_covers hpx hpy hc
        _ = s.fb.pixel px py := hcv.pixel_of_not_covers hpx hpy hc
  · rw [State.readV_withCanvas_vf, flagByte_eq_one_iff, hcv'.hit_iff, or_iff_right Bool.false_ne_true]
    refine exists_congr fun px => and_congr_right fun hpx => exists_congr fun py => and_congr_right fun hpy => ?_
    rw [and_comm]
    refine and_congr_left fun hset => ?_
    rw [← hcv.changes_iff hpx hpy, ← State.withCanvas_fb s cv, hset, ne_comm, Bool.eq_false_iff]

/-- Settles O53: no pixel of the cleared framebuffer is set. -/
theorem clearScreen : Obligations.ClearScreen := fun s =>
  ⟨_, rfl, fun px py _ _ => Framebuffer.pixel_clear px py, unchanged_setFb s _⟩

end Sys2Proof.Machine

/-! ## Timer and key rules: `SKP`, `SKNP`, the moves to and from the timers, and the key wait (44_timers_keys.md) -/

namespace Sys2Proof.Machine

/-! ### Frames of the updates of the timers and of `RUN` -/

theorem unchanged_setDt (s : State) (b : Byte) : Unchanged [.dt] s { s with dt := b } := by
  intro p hp
  cases p with
  | dt => exact absurd (List.mem_singleton_self _) hp
  | stack => exact ⟨rfl, rfl⟩
  | mem => exact fun _ => rfl
  | v | i | pc | st | fb | k | run | draws | launched | loadReport | schedule => rfl

theorem unchanged_setSt (s : State) (b : Byte) : Unchanged [.st] s { s with st := b } := by
  intro p hp
  cases p with
  | st => exact absurd (List.mem_singleton_self _) hp
  | stack => exact ⟨rfl, rfl⟩
  | mem => exact fun _ => rfl
  | v | i | pc | dt | fb | k | run | draws | launched | loadReport | schedule => rfl

theorem unchanged_setRun (s : State) (r : RunState) : Unchanged [.run] s { s with run := r } := by
  intro p hp
  cases p with
  | run => exact absurd (List.mem_singleton_self _) hp
  | stack => exact ⟨rfl, rfl⟩
  | mem => exact fun _ => rfl
  | v | i | pc | dt | st | fb | k | draws | launched | loadReport | schedule => rfl

/-! ### The key test -/

/-- The test of a key is the latch at its code; past the 16 latches there is none, and none is pressed (R156). -/
theorem State.pressed_eq_true_iff (s : State) (b : Byte) :
    s.pressed b = true ↔ s.k.toList[b.toNat]? = some true := by
  rw [State.pressed, State.key, Vector.getElem?_toList]
  split
  next hcode => rw [Vector.getElem?_eq_getElem hcode, Option.some_inj]
  next hcode =>
    rw [Vector.getElem?_eq_none (Nat.le_of_not_lt hcode)]
    exact iff_of_false Bool.false_ne_true nofun

theorem State.not_pressed_eq_true_iff (s : State) (b : Byte) :
    (!s.pressed b) = true ↔ ¬ s.k.toList[b.toNat]? = some true := by
  rw [← s.pressed_eq_true_iff, Bool.not_eq_true', Bool.not_eq_true]

/-! ### The obligations -/

/-- Settles O56: `SKP` skips on the test of the key, `SKNP` on its negation. -/
theorem skipOnKey : Obligations.SkipOnKey := by
  intro x s
  constructor
  · obtain ⟨t, ht, hpc, hframe⟩ := exec_skip (i := .skpVx x) rfl (s.pressed_eq_true_iff _)
    exact ⟨t, ht, hframe, hpc⟩
  · obtain ⟨t, ht, hpc, hframe⟩ := exec_skip (i := .sknpVx x) rfl (s.not_pressed_eq_true_iff _)
    exact ⟨t, ht, hframe, hpc.trans (ite_not _ _ _)⟩

/-- Settles O57: the load writes `V[x]` alone, and each store one timer alone. -/
theorem timerMoves : Obligations.TimerMoves := fun _ s =>
  ⟨exec_writeV rfl, ⟨_, rfl, rfl, unchanged_setDt s _⟩, ⟨_, rfl, rfl, unchanged_setSt s _⟩⟩

/-- Settles O58: the wait is one update of `RUN`. -/
theorem waitForKeySuspends : Obligations.WaitForKeySuspends := fun _ s =>
  ⟨_, rfl, rfl, unchanged_setRun s _⟩

end Sys2Proof.Machine

/-! ## Exception rules: errors are precise, every other instruction goes on, and the events tick, set_key and cancel
(60_exceptions.md) -/

namespace Sys2Proof.Machine

/-! ### Frames, one after the other -/

theorem Piece.same.trans {p : Piece} {s t u : State} (h : p.same s t) (h' : p.same t u) : p.same s u := by
  cases p with
  | stack => exact ⟨h'.1.trans h.1, h'.2.trans h.2⟩
  | mem => exact fun a => (h' a).trans (h a)
  | v | i | pc | dt | st | fb | k | run | draws | launched | loadReport | schedule => exact Eq.trans h' h

/-- Two updates in a row change at most what either of them changes. -/
theorem Unchanged.trans {ps qs rs : List Piece} {s t u : State} (h : Unchanged ps s t) (h' : Unchanged qs t u)
    (hps : ps ⊆ rs) (hqs : qs ⊆ rs) : Unchanged rs s u :=
  fun p hp => (h p (mt (@hps p) hp)).trans (h' p (mt (@hqs p) hp))

theorem unchanged_refl (ps : List Piece) (s : State) : Unchanged ps s s := by
  intro p _
  cases p with
  | stack => exact ⟨rfl, rfl⟩
  | mem => exact fun _ => rfl
  | v | i | pc | dt | st | fb | k | run | draws | launched | loadReport | schedule => rfl

theorem unchanged_setK (s : State) (latches : Vector Bool 16) : Unchanged [.k] s { s with k := latches } := by
  intro p hp
  cases p with
  | k => exact absurd (List.mem_singleton_self _) hp
  | stack => exact ⟨rfl, rfl⟩
  | mem => exact fun _ => rfl
  | v | i | pc | dt | st | fb | run | draws | launched | loadReport | schedule => rfl

theorem unchanged_setSchedule (s : State) (turns : List Turn) :
    Unchanged [.schedule] s { s with schedule := turns } := by
  intro p hp
  cases p with
  | schedule => exact absurd (List.mem_singleton_self _) hp
  | stack => exact ⟨rfl, rfl⟩
  | mem => exact fun _ => rfl
  | v | i | pc | dt | st | fb | k | run | draws | launched | loadReport => rfl

theorem unchanged_setKeyBit (s : State) (code : Nat) (b : Bool) : Unchanged [.k] s (s.setKeyBit code b) := by
  unfold State.setKeyBit
  split
  · exact unchanged_setK s _
  · exact unchanged_refl _ s

theorem unchanged_tick (s : State) : Unchanged [.dt, .st] s s.tick :=
  (unchanged_setDt s (countDown s.dt)).trans (unchanged_setSt _ (countDown s.st)) (by decide) (by decide)

theorem unchanged_cancel (s : State) : Unchanged [.run] s s.cancel := by
  obtain h | ⟨-, h⟩ := s.cancel_cases <;> rw [h]
  · exact unchanged_refl _ s
  · exact unchanged_setRun s _

/-- A scheduled event changes the schedule and what the event itself changes. -/
theorem unchanged_of_event {s t : State} {rest : List Turn} {ps qs : List Piece}
    (h : Unchanged ps { s with schedule := rest } t) (hqs : .schedule :: ps ⊆ qs) : Unchanged qs s t :=
  have ⟨hsched, hps⟩ := List.cons_subset.mp hqs
  (unchanged_setSchedule s rest).trans h (List.cons_subset.mpr ⟨hsched, List.nil_subset qs⟩) hps

/-! ### Errors -/

theorem State.loadBytes_of_gt (s : State) {base n : Nat} (hn : 0 < n) (h : 4096 < base + n) :
    s.loadBytes base n = none :=
  (s.loadBytes_eq base n).trans (if_neg (by omega))

theorem State.storeBytes_of_gt (s : State) {base : Nat} {bs : List Byte} (hbs : bs ≠ [])
    (h : 4096 < base + bs.length) : s.storeBytes base bs = none :=
  (s.storeBytes_eq base bs).trans (if_neg (by simp [hbs, h]))

theorem exec_drwVxVyN_of_ge (x y : Reg) {n : Nibble} {s : State} (hn : n.toNat > 0)
    (h : s.i.toNat + n.toNat - 1 ≥ 4096) : exec (.drwVxVyN x y n) s = .next (takeFault .outOfBounds s) := by
  have hrows : s.spriteRows n = none := s.loadBytes_of_gt hn (by rw [State.indexAddr]; omega)
  simp only [exec, execDrwVxVyN, hrows]

theorem exec_ldBVx_of_ge (x : Reg) {s : State} (h : s.i.toNat + 2 ≥ 4096) :
    exec (.ldBVx x) s = .next (takeFault .outOfBounds s) := by
  have hstore : s.storeBytes (s.indexAddr 0) (bcdDigits (s.readV x)) = none :=
    s.storeBytes_of_gt (List.cons_ne_nil _ _) (by rw [State.indexAddr, length_bcdDigits]; omega)
  simp only [exec, execLdBVx, hstore]

theorem exec_ldMemVx_of_ge {x : Reg} {s : State} (h : s.i.toNat + x.toNat ≥ 4096) :
    exec (.ldMemVx x) s = .next (takeFault .outOfBounds s) := by
  have hne : s.regBlock x ≠ [] := List.ne_nil_of_length_pos (by rw [State.length_regBlock]; omega)
  have hstore : s.storeBytes (s.indexAddr 0) (s.regBlock x) = none :=
    s.storeBytes_of_gt hne (by rw [State.indexAddr, State.length_regBlock]; omega)
  simp only [exec, execLdMemVx, hstore]

theorem exec_ldVxMem_of_ge {x : Reg} {s : State} (h : s.i.toNat + x.toNat ≥ 4096) :
    exec (.ldVxMem x) s = .next (takeFault .outOfBounds s) := by
  have hload : s.loadBytes (s.indexAddr 0) (x.toNat + 1) = none :=
    s.loadBytes_of_gt (Nat.succ_pos _) (by rw [State.indexAddr]; omega)
  simp only [exec, execLdVxMem, hload]

/-- An instruction that raises no error leaves `RUN` as it is or begins a key wait (10_state.md R29). -/
theorem Effect.run_cases {i : Instr} {s t : State} (h : Effect s i t) (hno : faultOf i s = none) :
    t.run = s.run ∨ ∃ x, t.run = .awaitKey x := by
  cases h with
  | fault hf => cases hf.symm.trans hno
  | awaitKey x => exact .inr ⟨x, rfl⟩
  | skip c => exact .inl (s.skipIf_run c)
  | loadBlock x bs => exact .inl (s.writeRegs_run 0 bs)
  | _ => exact .inl rfl

/-! ### Events -/

/-- The step of a scheduled event is the event, taken off the schedule (00_scope.md R12). -/
theorem step_of_host {s : State} {e : HostEvent} {rest : List Turn} (h : s.schedule = .host e :: rest) :
    step s = hostEvent e { s with schedule := rest } := by
  simp only [step, takeTurn, h]

theorem toNat_countDown (b : Byte) : (countDown b).toNat = if b.toNat > 0 then b.toNat - 1 else 0 := by
  unfold countDown
  split
  · bv_omega
  · omega

theorem State.cancel_of_running {s : State} (h : s.run = .ready ∨ ∃ x, s.run = .awaitKey x) :
    s.cancel = { s with run := .cancelled } := by
  obtain h | ⟨x, h⟩ := h <;> simp only [State.cancel, h]

theorem State.cancel_of_ended {s : State} (h : s.IsFaulted ∨ s.IsCancelled) : s.cancel = s := by
  obtain ⟨kind, h⟩ | h := h
  · simp only [State.cancel, h]
  · rw [State.IsCancelled] at h
    simp only [State.cancel, h]

theorem State.setKey_of_gt (s : State) {code : Nat} (pressed : Bool) (h : code > 15) :
    s.setKey code pressed = s :=
  if_pos h

theorem State.setKey_of_held {s : State} {code : Nat} (hcode : ¬ code > 15) (hkey : s.key code = true) :
    s.setKey code true = s := by
  rw [State.setKey, if_neg hcode, if_pos rfl, if_pos hkey]

/-- A press edge (60_exceptions.md R181). -/
theorem State.setKey_of_edge {s : State} {code : Nat} (hcode : ¬ code > 15) (hkey : ¬ s.key code = true) :
    s.setKey code true = (s.setKeyBit code true).resumeWait code := by
  rw [State.setKey, if_neg hcode, if_pos rfl, if_neg hkey]

theorem State.setKey_release (s : State) {code : Nat} (hcode : ¬ code > 15) :
    s.setKey code false = s.setKeyBit code false := by
  rw [State.setKey, if_neg hcode, if_neg Bool.false_ne_true]

theorem State.setKey_schedule (s : State) (code : Nat) (pressed : Bool) :
    (s.setKey code pressed).schedule = s.schedule := by
  obtain h | ⟨b, h⟩ | ⟨x, -, -, -, -, h⟩ := s.setKey_cases code pressed <;> rw [h]
  · exact s.setKeyBit_schedule code b
  · exact s.setKeyBit_schedule code true

theorem State.resumeWait_of_awaitKey {s : State} {x : Reg} (code : Nat) (h : s.run = .awaitKey x) :
    s.resumeWait code = { s.writeV x (BitVec.ofNat 8 code) with run := .ready } := by
  simp only [State.resumeWait, h]

theorem State.resumeWait_of_ne {s : State} (code : Nat) (h : ∀ x, s.run ≠ .awaitKey x) :
    s.resumeWait code = s := by
  unfold State.resumeWait
  split
  next x hrun => exact absurd hrun (h x)
  next => rfl

theorem State.key_resumeWait (s : State) (code c : Nat) : (s.resumeWait code).key c = s.key c := by
  unfold State.resumeWait
  split <;> rfl

/-- A press edge sets its key and no other, whether a key is awaited or not. -/
theorem State.key_setKey_of_edge {s : State} {code : Nat} (hcode : ¬ code > 15) (hkey : ¬ s.key code = true) :
    (s.setKey code true).key code = true ∧ ∀ c, c ≠ code → (s.setKey code true).key c = s.key c := by
  simp only [State.setKey_of_edge hcode hkey, State.key_resumeWait]
  exact ⟨s.key_setKeyBit_same code true (by omega), fun c hc => s.key_setKeyBit_other code c true hc⟩

/-- A press edge that resumes a key wait gives the code to `V[x]` and changes no other register
(60_exceptions.md R182). -/
theorem State.setKey_resumes {s : State} {x : Reg} {code : Nat} (hcode : ¬ code > 15) (hkey : ¬ s.key code = true)
    (hwait : s.run = .awaitKey x) :
    (s.setKey code true).run = .ready ∧ ((s.setKey code true).readV x).toNat = code ∧
      RegsUnchanged [x] s (s.setKey code true) ∧ Unchanged [.k, .v, .run] s (s.setKey code true) := by
  let pressed : State := s.setKeyBit code true
  have hrun : pressed.run = .awaitKey x := (s.setKeyBit_run code true).trans hwait
  rw [State.setKey_of_edge hcode hkey, State.resumeWait_of_awaitKey code hrun]
  refine ⟨rfl, ?_, fun r hr => ?_, ?_⟩
  · exact (congrArg BitVec.toNat (pressed.readV_writeV_same x _)).trans (Nat.mod_eq_of_lt (by omega))
  · exact (regsUnchanged_writeV pressed x _ r hr).trans (State.readV_congr (s.setKeyBit_v code true) r)
  · refine (unchanged_setKeyBit s code true).trans (qs := [.v, .run]) ?_ (by decide) (by decide)
    exact (unchanged_setV pressed _).trans (unchanged_setRun _ _) (by decide) (by decide)

/-- A press edge while no key is awaited sets the key and nothing more (60_exceptions.md R182). -/
theorem State.setKey_of_edge_idle {s : State} {code : Nat} (hcode : ¬ code > 15) (hkey : ¬ s.key code = true)
    (hidle : ∀ x, s.run ≠ .awaitKey x) : s.setKey code true = s.setKeyBit code true := by
  rw [State.setKey_of_edge hcode hkey, State.resumeWait_of_ne]
  rwa [s.setKeyBit_run]

/-! ### The obligations -/

/-- Settles O28: the answer of each instruction that can raise an error, in the case of the table. -/
theorem faultEntryIsPrecise : Obligations.FaultEntryIsPrecise := by
  intro i s kind h
  cases i with
  | ret =>
    obtain ⟨hempty, ⟨⟩⟩ := Option.ite_none_right_eq_some.mp h
    exact exec_ret_of_pop_none (s.pop_eq_none.mpr hempty)
  | call nnn =>
    obtain ⟨hfull, ⟨⟩⟩ := Option.ite_none_right_eq_some.mp h
    exact exec_call_of_push_none nnn (s.push_of_full s.pc hfull)
  | drwVxVyN x y n =>
    obtain ⟨⟨hn, hend⟩, ⟨⟩⟩ := Option.ite_none_right_eq_some.mp h
    exact exec_drwVxVyN_of_ge x y hn hend
  | ldBVx x =>
    obtain ⟨hend, ⟨⟩⟩ := Option.ite_none_right_eq_some.mp h
    exact exec_ldBVx_of_ge x hend
  | ldMemVx x =>
    obtain ⟨hend, ⟨⟩⟩ := Option.ite_none_right_eq_some.mp h
    exact exec_ldMemVx_of_ge hend
  | ldVxMem x =>
    obtain ⟨hend, ⟨⟩⟩ := Option.ite_none_right_eq_some.mp h
    exact exec_ldVxMem_of_ge hend
  | _ => cases h

/-- Settles O29, from the effect of each instruction on `RUN`. -/
theorem everyInstructionGoesOn : Obligations.EveryInstructionGoesOn := by
  intro i s hno
  obtain ⟨t, ht, he⟩ := exec_effect i s
  refine ⟨t, ht, fun kind hfault => ?_⟩
  obtain hrun | ⟨x, hwait⟩ := he.run_cases hno
  · exact hrun.symm.trans hfault
  · cases hwait.symm.trans hfault

/-- Settles O22, one equation of `set_key` for each branch of the rule. -/
theorem setKeyAndResume : Obligations.SetKeyAndResume := by
  intro s code pressed rest hs
  let u : State := { s with schedule := rest }
  refine ⟨u.setKey code pressed, step_of_host hs, u.setKey_schedule code pressed, ?_⟩
  split
  next hcode =>
    rw [u.setKey_of_gt pressed hcode]
    exact unchanged_setSchedule s rest
  next hcode =>
    cases pressed with
    | false =>
      rw [if_neg Bool.false_ne_true, u.setKey_release hcode]
      exact ⟨u.key_setKeyBit_same code false (by omega), fun c hc => u.key_setKeyBit_other code c false hc,
        unchanged_of_event (unchanged_setKeyBit u code false) (by decide)⟩
    | true =>
      rw [if_pos rfl]
      split
      next hheld =>
        rw [State.setKey_of_held (s := u) hcode hheld]
        exact unchanged_setSchedule s rest
      next hedge =>
        obtain ⟨hset, hothers⟩ := State.key_setKey_of_edge (s := u) hcode hedge
        refine ⟨hset, hothers, fun x hwait => ?_, fun hidle => ?_⟩
        · obtain ⟨hrun, hcode', hregs, hframe⟩ := State.setKey_resumes (s := u) hcode hedge hwait
          exact ⟨hrun, hcode', hregs, unchanged_of_event hframe (by decide)⟩
        · rw [State.setKey_of_edge_idle (s := u) hcode hedge hidle]
          exact unchanged_of_event (unchanged_setKeyBit u code true) (by decide)

/-- Settles O21, from the count of one timer. -/
theorem tickCountsTimersDown : Obligations.TickCountsTimersDown := fun s _ hs =>
  ⟨_, step_of_host hs, toNat_countDown s.dt, toNat_countDown s.st, rfl,
    unchanged_of_event (unchanged_tick _) (by decide)⟩

/-- Settles O23, from what `cancel` answers in a run under way and in one that has ended. -/
theorem cancelEndsRun : Obligations.CancelEndsRun := by
  intro s rest hs
  let u : State := { s with schedule := rest }
  have hframe : Unchanged [.run] u u.cancel := unchanged_cancel u
  refine ⟨u.cancel, step_of_host hs, hframe .schedule (by decide),
    unchanged_of_event hframe (by decide), fun hrunning => ?_, fun hended => ?_⟩
  · rw [State.cancel_of_running (s := u) hrunning]
  · rw [State.cancel_of_ended (s := u) hended]

/-- Settles O35: with 12 entries by fault entry (O28), with fewer by the answer of `CALL` with room. -/
theorem thirteenthCallOverflows : Obligations.ThirteenthCallOverflows := fun nnn s =>
  ⟨fun hfull => ⟨_, faultEntryIsPrecise (.call nnn) s _ (if_pos hfull), rfl, rfl, rfl, rfl, unchanged_setRun s _⟩,
    fun hroom => ⟨_, exec_call_of_lt s nnn hroom, rfl, rfl⟩⟩

/-- Settles O37, by fault entry (O28). -/
theorem returnOnEmptyUnderflows : Obligations.ReturnOnEmptyUnderflows := fun s hempty =>
  ⟨_, faultEntryIsPrecise .ret s _ (if_pos hempty), rfl, rfl, rfl, rfl, unchanged_setRun s _⟩

end Sys2Proof.Machine

/-! ## Reset and load rules: the host events `reset` and `load_program` (70_reset_and_hazards.md) -/

namespace Sys2Proof.Machine

/-! ### Frames of the updates of the model's own fields -/

theorem unchanged_setDraws (s : State) (n : Nat) : Unchanged [.draws] s { s with draws := n } := by
  intro p hp
  cases p with
  | draws => exact absurd (List.mem_singleton_self _) hp
  | stack => exact ⟨rfl, rfl⟩
  | mem => exact fun _ => rfl
  | v | i | pc | dt | st | fb | k | run | launched | loadReport | schedule => rfl

theorem unchanged_setLoadReport (s : State) (r : Option LoadReport) :
    Unchanged [.loadReport] s { s with loadReport := r } := by
  intro p hp
  cases p with
  | loadReport => exact absurd (List.mem_singleton_self _) hp
  | stack => exact ⟨rfl, rfl⟩
  | mem => exact fun _ => rfl
  | v | i | pc | dt | st | fb | k | run | draws | launched | schedule => rfl

theorem unchanged_resetEvent (s : State) : Unchanged [.draws, .schedule] State.reset s.resetEvent :=
  (unchanged_setDraws State.reset s.draws).trans (unchanged_setSchedule _ s.schedule) (by decide) (by decide)

/-! ### What `load_program` answers (R202) -/

theorem hostEvent_loadProgram_of_not_launched {s : State} (image : List Byte) (h : s.launched = false) :
    hostEvent (.loadProgram image) s = .next (s.loadProgram image) := by
  rw [hostEvent, h, if_neg Bool.false_ne_true]

theorem hostEvent_loadProgram_of_launched {s : State} (image : List Byte) (h : s.launched = true) :
    hostEvent (.loadProgram image) s = .refused .loadDuringRun := by
  rw [hostEvent, if_pos h]

theorem State.loadProgram_of_le (s : State) {image : List Byte}
    (h : Config.progBase + image.length ≤ Config.memSize) :
    s.loadProgram image = { s.storeBlock Config.progBase image with loadReport := some .ok } :=
  if_pos (decide_eq_true h)

theorem State.loadProgram_of_gt (s : State) {image : List Byte}
    (h : Config.progBase + image.length > Config.memSize) :
    s.loadProgram image = { s with loadReport := some .programTooLarge } :=
  if_neg (mt of_decide_eq_true (Nat.not_le.mpr h))

/-- A store by the host with its report changes the memory and the report. -/
theorem unchanged_storeBlock_setLoadReport (s : State) (base : Nat) (bs : List Byte) (r : Option LoadReport) :
    Unchanged [.mem, .loadReport] s { s.storeBlock base bs with loadReport := r } :=
  (unchanged_setMem s _).trans (unchanged_setLoadReport _ r) (by decide) (by decide)

/-! ### The obligations -/

/-- Settles O11: before the first instruction step by the answer of `load_program` to an image that fits and to one
that does not, afterwards by the refusal. -/
theorem loadProgramCopiesImage : Obligations.LoadProgramCopiesImage := by
  intro s image rest hs
  let u : State := { s with schedule := rest }
  have hstep (hl : s.launched = false) : step s = .next (u.loadProgram image) :=
    (step_of_host hs).trans (hostEvent_loadProgram_of_not_launched image hl)
  refine ⟨fun hl hfits hwf => ?_, fun hl hlarge => ?_, fun hl => ?_⟩
  · rw [hstep hl, u.loadProgram_of_le hfits]
    exact ⟨_, rfl, Memory.read_writeBlock_inside hwf Config.progBase image hfits,
      memUnchangedOutside_storeBlock u Config.progBase image, rfl, rfl,
      unchanged_of_event (unchanged_storeBlock_setLoadReport u _ _ _) (by decide)⟩
  · rw [hstep hl, u.loadProgram_of_gt hlarge]
    exact ⟨_, rfl, rfl, rfl, unchanged_of_event (unchanged_setLoadReport u _) (by decide)⟩
  · exact (step_of_host hs).trans (hostEvent_loadProgram_of_launched image hl)

/-- Settles O10, from the frame of `reset` against `State.reset`. -/
theorem resetEventRestoresReset : Obligations.ResetEventRestoresReset := fun _ _ hs =>
  ⟨_, step_of_host hs, unchanged_resetEvent _, rfl, rfl⟩

end Sys2Proof.Machine

/-! ## Words written out in the rules and the vectors (30_encoding.md R75 to R80) -/

namespace Sys2Proof

/-- The low nibble is ignored under 0x5 (R80), so `decodeWord_encode` reaches only `n = 0` of these words. -/
theorem decodeWord_formXyn_seVxVy (x y : Reg) (n : Nibble) :
    decodeWord (formXyn 0x5 x y n) = some (.seVxVy x y) := by
  simp [decodeWord]

/-- Settles O2: the words with an instruction are its code (0x5011 up to the ignored nibble), and the Unknown words
lie outside the list that their family selects by. -/
theorem writtenOutWordsDecode : Obligations.WrittenOutWordsDecode :=
  ⟨decodeWord_encode .cls, decodeWord_encode .ret, decodeWord_encode (.jp 0x204), decodeWord_encode (.call 0x208),
    decodeWord_encode (.seVxNn 1 0x00), decodeWord_formXyn_seVxVy 0 1 1, decodeWord_encode (.ldVxNn 0 0xEA),
    decodeWord_encode (.addVxVy 0 1), decodeWord_encode (.shrVx 1), decodeWord_encode (.ldINnn 0x050),
    decodeWord_encode (.rndVxNn 2 0x0F), decodeWord_encode (.drwVxVyN 0 1 5), decodeWord_encode (.skpVx 3),
    decodeWord_encode (.ldVxK 2), decodeWord_encode (.ldVxMem 2),
    (decodeFamily0_eq_none_iff (w := 0x0000)).mpr (by decide),
    (decodeFamily0_eq_none_iff (w := 0x01E0)).mpr (by decide),
    (decodeFamily8_eq_none_iff (w := 0x8008)).mpr (by decide),
    (decodeFamilyE_eq_none_iff (w := 0xE09F)).mpr (by decide),
    (decodeFamilyF_eq_none_iff (w := 0xF066)).mpr (by decide)⟩

end Sys2Proof
